-- ==== Sys2Proof/Word.lean ====
section
/-! DEFINITION. Bytes and 128-bit vectors (spec/00_scope.md R11). -/

namespace Sys2Proof

/-- A byte, `b[7:0]` (R11). -/
abbrev Byte := BitVec 8

/-- A vector: 16 bytes indexed by byte offset 0 to 15, byte 0 first. R11 calls it opaque: no rule
treats it as a 128-bit number, so it is a vector of bytes and not a bit vector. -/
abbrev Block := Vector Byte 16

/-- The vector whose 16 bytes are all `x`. -/
def constBlock (x : Byte) : Block := Vector.ofFn fun _ => x

end Sys2Proof
end

