-- ==== Sys2Proof/Syntax.lean ====
section
/-! DEFINITION. The instructions: one constructor per row of spec/opcode_table.json, and the two kinds
of word they are encoded in (spec/30_encoding.md R80). -/

namespace Sys2Proof

/-- The nine encoded instructions: the four host commands (format C) and the five micro-operation
forms (format V). The SEED operand of INIT and RESEED and the vector operands of a micro-operation
travel beside the word (R84, R87) and stand in the state. -/
inductive Instr where
  /-- INIT, spec/42_sponge.md R163 -/
  | init
  /-- RESEED, R164 -/
  | reseed
  /-- GENBYTE, R165 -/
  | genbyte
  /-- GENERATE `count`, R166 -/
  | generate (count : BitVec 28)
  /-- VLOAD STATE[i], spec/40_vector_ops.md R111 -/
  | vloadState (i : BitVec 4)
  /-- VLOAD SEED[i], R111; `i` = 15 is reserved -/
  | vloadSeed (i : BitVec 4)
  /-- VLOAD RKROM[k], R111; `k` above 135 is reserved -/
  | vloadRkrom (k : BitVec 8)
  /-- VSTORE STATE[i], R112 -/
  | vstoreState (i : BitVec 4)
  /-- VAESRND, R113 -/
  | vaesrnd
  deriving DecidableEq, Repr

/-- An encoded word with its format: a 32-bit command word or a 16-bit micro-operation word (R80). -/
inductive CodeWord where
  | command (cmd : BitVec 32)
  | microOp (vop : BitVec 16)
  deriving DecidableEq, Repr

end Sys2Proof
end

