-- ==== Sys2Proof/Decode.lean ====
section
/-! DEFINITION. Decoding of command words and micro-operation words, total, rejecting by name
(spec/30_encoding.md R81 to R89), and the encoder. -/

namespace Sys2Proof

/-- Why a word is no instruction. -/
inductive DecodeReject where
  /-- A command word that matches no row of R85 (R86). -/
  | illegalCommand (cmd : BitVec 32)
  /-- A micro-operation word outside the legal set of R89. -/
  | reservedMicroOp (vop : BitVec 16)
  deriving DecidableEq, Repr

/-! ### Format C (R81) -/

/-- `OP = cmd[31:28]`. -/
def opField (cmd : BitVec 32) : BitVec 4 := cmd.extractLsb' 28 4

/-- `COUNT = cmd[27:0]`. -/
def countField (cmd : BitVec 32) : BitVec 28 := cmd.extractLsb' 0 28

/-- Decoding a command word, R85. -/
def decodeCommand (cmd : BitVec 32) : Except DecodeReject Instr :=
  if opField cmd = 0x1 ∧ countField cmd = 0 then .ok .init
  else if opField cmd = 0x2 ∧ countField cmd = 0 then .ok .reseed
  else if opField cmd = 0x3 ∧ countField cmd = 0 then .ok .genbyte
  else if opField cmd = 0x4 then .ok (.generate (countField cmd))
  else .error (.illegalCommand cmd)

/-! ### Format V (R87) -/

/-- `VOP = vop[15:14]`. -/
def vopField (vop : BitVec 16) : BitVec 2 := vop.extractLsb' 14 2

/-- `BUF = vop[13:12]`. -/
def bufField (vop : BitVec 16) : BitVec 2 := vop.extractLsb' 12 2

/-- `vop[11:8]`, which must be zero. -/
def zeroField (vop : BitVec 16) : BitVec 4 := vop.extractLsb' 8 4

/-- `IDX = vop[7:0]`. -/
def idxField (vop : BitVec 16) : BitVec 8 := vop.extractLsb' 0 8

/-- Decoding a micro-operation word: the fields of R88 and the conditions of R89. -/
def decodeMicroOp (vop : BitVec 16) : Except DecodeReject Instr :=
  if zeroField vop ≠ 0 then .error (.reservedMicroOp vop)
  else if vopField vop = 0b01 then
    if bufField vop = 0b00 ∧ (idxField vop).toNat ≤ 15 then
      .ok (.vloadState ((idxField vop).setWidth 4))
    else if bufField vop = 0b01 ∧ (idxField vop).toNat ≤ 14 then
      .ok (.vloadSeed ((idxField vop).setWidth 4))
    else if bufField vop = 0b10 ∧ (idxField vop).toNat ≤ 135 then
      .ok (.vloadRkrom (idxField vop))
    else .error (.reservedMicroOp vop)
  else if vopField vop = 0b10 ∧ bufField vop = 0b00 ∧ (idxField vop).toNat ≤ 15 then
    .ok (.vstoreState ((idxField vop).setWidth 4))
  else if vopField vop = 0b11 ∧ bufField vop = 0b00 ∧ idxField vop = 0 then .ok .vaesrnd
  else .error (.reservedMicroOp vop)

/-- Decoding a word of either format. The format is the interface's, not a bit of the word (R80). -/
def decode : CodeWord → Except DecodeReject Instr
  | .command cmd => decodeCommand cmd
  | .microOp vop => decodeMicroOp vop

/-! ### The encoder (R82, R89) -/

/-- `0x40000000 + COUNT`. -/
def generateWord (count : BitVec 28) : BitVec 32 := 0x40000000 + count.setWidth 32

/-- `0x4000 + i`. -/
def vloadStateWord (i : BitVec 4) : BitVec 16 := 0x4000 + i.setWidth 16

/-- `0x5000 + i`. -/
def vloadSeedWord (i : BitVec 4) : BitVec 16 := 0x5000 + i.setWidth 16

/-- `0x6000 + k`. -/
def vloadRkromWord (k : BitVec 8) : BitVec 16 := 0x6000 + k.setWidth 16

/-- `0x8000 + i`. -/
def vstoreStateWord (i : BitVec 4) : BitVec 16 := 0x8000 + i.setWidth 16

/-- The one word of VAESRND. -/
def vaesrndWord : BitVec 16 := 0xC000

/-- The word of an instruction (R82, R89). -/
def encode : Instr → CodeWord
  | .init => .command 0x10000000
  | .reseed => .command 0x20000000
  | .genbyte => .command 0x30000000
  | .generate count => .command (generateWord count)
  | .vloadState i => .microOp (vloadStateWord i)
  | .vloadSeed i => .microOp (vloadSeedWord i)
  | .vloadRkrom k => .microOp (vloadRkromWord k)
  | .vstoreState i => .microOp (vstoreStateWord i)
  | .vaesrnd => .microOp vaesrndWord

/-! ### The host's view of the decoder -/

/-- The `nbits`-bit table word `w` as an encoded word: a row of at most 16 bits is a micro-operation
word, a longer one a command word. Words are numbers, not byte sequences (spec/20_memory.md R53). -/
def tableWord (nbits w : Nat) : CodeWord :=
  if nbits ≤ 16 then .microOp (BitVec.ofNat 16 w) else .command (BitVec.ofNat 32 w)

/-- The instruction the decoder reads from the `nbits`-bit word `w`. -/
def decodeTableWord (nbits w : Nat) : Option Instr :=
  match decode (tableWord nbits w) with
  | .ok i => some i
  | .error _ => none

end Sys2Proof
end

