-- ==== Sys2Proof/Config.lean ====
section
/-! DEFINITION. What one implementation fixes (the round-key table) and the free values. None of these
constants has a body: nothing in Lean can evaluate one or prove a value of it. -/

namespace Sys2Proof

/-- The open parameter `RK_TABLE` (spec/00_scope.md R9, 10_state.md R26): key index 0 to 135 to a
16-byte vector. Log 5. -/
opaque Config.rkTable : Fin 136 → Block

/-- A free vector: the value of vector register number `place` at the free-value epoch `epoch`, where
the spec gives it no value (10_state.md R28, R29, R32, R38). Not a function of what the register held: DESIGN CHOICE, log 6. -/
opaque Config.freeBlock : (epoch place : Nat) → Block

/-- Block `place` of S after a reset event: an unconstrained function of the WHOLE state `before` the event,
which still lists the event itself. The spec leaves open whether S is kept, cleared or anything else
(10_state.md R38, 70_reset_and_hazards.md R222, U18), so S after a reset may depend on S before it: the
function may give the old block. DESIGN CHOICE that it is a function of that state: log 7. -/
opaque Config.resetBlock : {σ : Type} → (before : σ) → (place : Nat) → Block

/-- NEXT after a reset event, in the same form (10_state.md R38, U2). Log 7. -/
opaque Config.resetCursor : {σ : Type} → (before : σ) → BitVec 9

/-- A free counter of `width` bits: register number `place` at the epoch `epoch`
(10_state.md R30, R38). DESIGN CHOICE as for a vector: log 6. -/
opaque Config.freeCounter : (width epoch place : Nat) → BitVec width

end Sys2Proof
end

