-- ==== Sys2Proof/Machine/Memory.lean ====
section
/-! DEFINITION. The state buffer `S` as memory (spec/10_state.md R21, 20_memory.md R51, R52): the bytes
at addresses 0 to 255, held in one canonical form. -/

namespace Sys2Proof.Machine

/-- The state buffer: (address, byte) pairs, addresses rising, no entry equal to `unlistedByte`. -/
abbrev Memory := List Host.Cell

/-- How many byte addresses `S` has: `STATE_BYTES` (spec/00_scope.md R8). -/
def stateBytes : Nat := 256

/-- What an address that is not listed reads as. The spec leaves the contents of `S` at reset
unspecified (10_state.md R38). DESIGN CHOICE, unsafe: log 3. -/
def unlistedByte : Byte := 0

/-- The canonical form: addresses strictly rising and below 256, no entry that reads as an unlisted
address does. -/
abbrev Memory.wf (m : Memory) : Prop :=
  m.Pairwise (fun x y => x.1 < y.1) ∧ ∀ c ∈ m, c.1 < stateBytes ∧ c.2 ≠ unlistedByte

/-- `S.byte[a]`. -/
def readByte : Memory → Nat → Byte
  | [], _ => unlistedByte
  | (b, v) :: m, a => if a = b then v else readByte m a

/-- `S.byte[a] <- v`, in canonical form. -/
def writeByte : Memory → Nat → Byte → Memory
  | [], a, v => if v = unlistedByte then [] else [(a, v)]
  | (b, w) :: m, a, v =>
    if a < b then (if v = unlistedByte then (b, w) :: m else (a, v) :: (b, w) :: m)
    else if a = b then (if v = unlistedByte then m else (a, v) :: m)
    else (b, w) :: writeByte m a v

/-- Block `b` of the buffer: `byte[j] = S.byte[16*b + j]` (R51). -/
def readBlock (m : Memory) (b : Nat) : Block := Vector.ofFn fun j => readByte m (16 * b + j.val)

/-- The contents of the shuffle ROM, entries 0 to 15 (spec/10_state.md R27). -/
def shufTable : Vector (BitVec 4) 16 := #v[7, 2, 13, 4, 11, 8, 3, 6, 15, 0, 9, 10, 1, 14, 5, 12]

/-- `MemWrite`: `S.byte[16*b + j] <- v.byte[j]` for the 16 `j`, no other byte (R51). -/
def writeBlock (m : Memory) (b : Nat) (v : Block) : Memory :=
  (List.finRange 16).foldl (fun m j => writeByte m (16 * b + j.val) v[j]) m

/-- `for i = 0 .. 255: S.byte[i] <- 0`, the zeroing step of INIT (spec/42_sponge.md R163). -/
def zeroBuffer (m : Memory) : Memory := (List.range stateBytes).foldl (fun m i => writeByte m i 0) m

end Sys2Proof.Machine
end

