-- ==== Sys2Proof/Machine/State.lean ====
section
/-! DEFINITION. The state of the CORE (spec/10_state.md R20), its value after reset (R38), and the
reasons a step can stop. -/

namespace Sys2Proof.Machine

/-- The eight working latches of R28. -/
inductive Latch where
  | even | odd | key | f1 | f2 | prev | inner | t
  deriving DecidableEq, Repr

/-- The contents of the eight working latches (R28). -/
structure Latches where
  even : Block
  odd : Block
  key : Block
  f1 : Block
  f2 : Block
  prev : Block
  inner : Block
  t : Block
  deriving DecidableEq, Repr

/-- Where VLOAD's result goes: a latch or a SNAP entry (spec/40_vector_ops.md R111). -/
inductive LoadPort where
  | latch (l : Latch)
  | snap (i : BitVec 4)
  deriving DecidableEq, Repr

/-- What VSTORE stores: a latch, a SNAP entry (R112), or the sponge's XOR128 of two latches, which
ABSORB and REGEN put on the store port (spec/42_sponge.md R161, R162; 40_vector_ops.md R121). Log 12. -/
inductive StorePort where
  | latch (l : Latch)
  | snap (i : BitVec 4)
  | xor (x y : Latch)
  deriving DecidableEq, Repr

/-- Which storage each data port of the dispatcher is connected to; the connection is the routine's and
is not in the word (spec/30_encoding.md R87). The MODEL's own state: log 12. -/
structure Ports where
  load : LoadPort
  store : StorePort
  aesState : Latch
  aesKey : Latch
  aesResult : Latch
  deriving DecidableEq, Repr

/-- The two ROMs. No operation writes either (R26, R27, spec/20_memory.md R63). -/
structure Roms where
  /-- `RK[0 .. 135]` (R26) -/
  rk : Vector Block 136
  /-- `SHUF[0 .. 15]`, 4-bit block indices (R27) -/
  shuf : Vector (BitVec 4) 16
  deriving DecidableEq, Repr

/-- The STATUS codes that are produced (R33, 30_encoding.md R90); code 3 never is. -/
inductive Status where
  | ok
  | errIllegal
  | errUninit
  deriving DecidableEq, Repr

/-- The response of a command: STATUS and DATA, first byte first (R33, R90). -/
structure Response where
  status : Status
  data : List Byte
  deriving DecidableEq, Repr

/-- The SEED operand buffer: 15 blocks, seed byte `16*i + j` in block `i` at offset `j` (R32). -/
abbrev Seed := Vector Block 15

/-- What arrives at the CORE from outside. -/
inductive Event where
  /-- The reset event (spec/70_reset_and_hazards.md R220). -/
  | reset
  /-- A command word with its SEED operand (spec/30_encoding.md R81, R84). -/
  | command (cmd : BitVec 32) (seed : Seed)
  /-- A command during which reset arrives (R221). Log 8. -/
  | cutCommand (cmd : BitVec 32) (seed : Seed)
  /-- A micro-operation word put to the dispatcher on its own, with its port connections (R87). No host
  can send it: log 2. -/
  | issue (vop : BitVec 16) (ports : Ports)
  deriving DecidableEq, Repr

/-- The machine. The first group is the spec's (R20), the second the model's own (log 1, 6, 12, 13). -/
structure State where
  /-- `S` (R21) -/
  mem : Memory
  /-- `NEXT` (R24) -/
  next : BitVec 9
  /-- `INITED` (R25) -/
  inited : Bool
  /-- `RK` (R26) and `SHUF` (R27) -/
  roms : Roms
  /-- `EVEN`, `ODD`, `KEY`, `F1`, `F2`, `PREV`, `INNER`, `T` (R28) -/
  latches : Latches
  /-- `SNAP[0 .. 15]` (R29) -/
  snap : Vector Block 16
  /-- `ROUND` (R30) -/
  round : BitVec 5
  /-- `BR` (R30) -/
  br : BitVec 4
  /-- `KP` (R30) -/
  kp : BitVec 8
  /-- `I` (R30) -/
  idx : BitVec 4
  /-- `CNT` (R30) -/
  cnt : BitVec 28
  /-- `SEED` (R32) -/
  seed : Seed
  /-- `STATUS` and `DATA` of the last command (R33); none before a command has ended since reset -/
  response : Option Response
  /-- the model's: events not yet taken, oldest first -/
  inputs : List Event
  /-- the model's: the connection of the dispatcher's data ports -/
  ports : Ports
  /-- the model's: micro-operation words issued since the last command was accepted, newest first -/
  issued : List (BitVec 16)
  /-- the model's: numbers the free values -/
  epoch : Nat
  deriving DecidableEq, Repr

/-- The faults that stop the machine: none. Both faults of the spec end a command with a response and
the machine goes on (spec/60_exceptions.md R190, R196, R197). Nobody raises one. Log 18, safe. -/
inductive Fault where
  deriving DecidableEq, Repr

/-- The cases to which the spec gives no meaning (treatment `refuse` of spec/93_implementation_defined.md). -/
inductive Refusal where
  /-- An instruction with no meaning in this model. No arm raises it. Safe. -/
  | notModelled (mnemonic : String)
  /-- A micro-operation word outside the legal set (30_encoding.md R89, U6). Raised by the step on such
  a word and by a load at an index its buffer does not have. Safe: log 10. -/
  | reservedMicroOp (vop : BitVec 16)
  /-- A byte read with NEXT outside 16 .. 256 (10_state.md R35, U7). Raised by GENBYTE and GENERATE.
  Safe: log 9. -/
  | cursorOutOfRange (next : BitVec 9)
  deriving DecidableEq, Repr

/-- The result of an operation that can stop. -/
abbrev Result := Host.Outcome State Fault Refusal

/-- The two ROMs: the round keys of a table, and the shuffle table of R27. -/
def romsOf (table : Fin 136 → Block) : Roms := { rk := Vector.ofFn table, shuf := shufTable }

/-- The port connections at reset. DESIGN CHOICE: log 12. -/
def resetPorts : Ports :=
  { load := .latch .t, store := .latch .t, aesState := .t, aesKey := .t, aesResult := .t }

/-- The latches at reset: unspecified (R38). DESIGN CHOICE zero, unsafe: log 4. -/
def resetLatches : Latches :=
  { even := constBlock 0, odd := constBlock 0, key := constBlock 0, f1 := constBlock 0,
    f2 := constBlock 0, prev := constBlock 0, inner := constBlock 0, t := constBlock 0 }

/-- The machine right after reset (R38, spec/70_reset_and_hazards.md R220): INITED is 0 and the ROM holds
its table; every other register is unspecified and holds the value log 3 and log 4 name. -/
def State.reset : State :=
  { mem := [], next := 0, inited := false, roms := romsOf Config.rkTable,
    latches := resetLatches, snap := Vector.ofFn fun _ => constBlock 0,
    round := 0, br := 0, kp := 0, idx := 0, cnt := 0,
    seed := Vector.ofFn fun _ => constBlock 0,
    response := none, inputs := [], ports := resetPorts, issued := [], epoch := 0 }

end Sys2Proof.Machine
end

