-- ==== Sys2Proof/Machine/Flags.lean ====
section
/-! DEFINITION. The conditions and codes that play the part of flags: the two sponge conditions
(spec/10_state.md R24, 42_sponge.md R160), which are derived from NEXT and never stored, and the
response codes (30_encoding.md R90). No instruction sets a flag as a side effect (R24). -/

namespace Sys2Proof.Machine

/-- `Exhausted`: `NEXT >= 256`. -/
def exhausted (s : State) : Bool := decide (256 ≤ s.next.toNat)

/-- `HasOutput`: `16 <= NEXT < 256`. -/
def hasOutput (s : State) : Bool := decide (16 ≤ s.next.toNat ∧ s.next.toNat < 256)

/-- NEXT has a value to which the spec gives a meaning at a byte read: 16 to 256
(spec/10_state.md R35, 93_implementation_defined.md U7). -/
def cursorInRange (s : State) : Bool := decide (16 ≤ s.next.toNat ∧ s.next.toNat ≤ 256)

/-- The 2-bit STATUS code (R33, R90). -/
def statusCode : Status → BitVec 2
  | .ok => 0
  | .errIllegal => 1
  | .errUninit => 2

/-- The two synchronous faults a command can raise (spec/60_exceptions.md R191). -/
inductive CommandFault where
  | illegalCommand
  | uninitialised
  deriving DecidableEq, Repr

/-- The STATUS a fault answers (R191). -/
def faultStatus : CommandFault → Status
  | .illegalCommand => .errIllegal
  | .uninitialised => .errUninit

end Sys2Proof.Machine
end

