-- ==== Sys2Proof/Machine/AesRound.lean ====
section
/-! DEFINITION. The vector functions of the data path: XOR128 and the AES round AESRND
(spec/40_vector_ops.md R114 to R121). Every function here is total (R110). -/

namespace Sys2Proof.Machine

/-- `XOR128(x, y)`: byte-wise exclusive-or (R121). -/
def xor128 (x y : Block) : Block := Vector.ofFn fun j => x[j] ^^^ y[j]

/-- The table SBOX of R115, one line per high hexadecimal digit. Log 11. -/
def sboxRows : List (List Byte) :=
  [[0x63, 0x7c, 0x77, 0x7b, 0xf2, 0x6b, 0x6f, 0xc5, 0x30, 0x01, 0x67, 0x2b, 0xfe, 0xd7, 0xab, 0x76],
   [0xca, 0x82, 0xc9, 0x7d, 0xfa, 0x59, 0x47, 0xf0, 0xad, 0xd4, 0xa2, 0xaf, 0x9c, 0xa4, 0x72, 0xc0],
   [0xb7, 0xfd, 0x93, 0x26, 0x36, 0x3f, 0xf7, 0xcc, 0x34, 0xa5, 0xe5, 0xf1, 0x71, 0xd8, 0x31, 0x15],
   [0x04, 0xc7, 0x23, 0xc3, 0x18, 0x96, 0x05, 0x9a, 0x07, 0x12, 0x80, 0xe2, 0xeb, 0x27, 0xb2, 0x75],
   [0x09, 0x83, 0x2c, 0x1a, 0x1b, 0x6e, 0x5a, 0xa0, 0x52, 0x3b, 0xd6, 0xb3, 0x29, 0xe3, 0x2f, 0x84],
   [0x53, 0xd1, 0x00, 0xed, 0x20, 0xfc, 0xb1, 0x5b, 0x6a, 0xcb, 0xbe, 0x39, 0x4a, 0x4c, 0x58, 0xcf],
   [0xd0, 0xef, 0xaa, 0xfb, 0x43, 0x4d, 0x33, 0x85, 0x45, 0xf9, 0x02, 0x7f, 0x50, 0x3c, 0x9f, 0xa8],
   [0x51, 0xa3, 0x40, 0x8f, 0x92, 0x9d, 0x38, 0xf5, 0xbc, 0xb6, 0xda, 0x21, 0x10, 0xff, 0xf3, 0xd2]] ++
  [[0xcd, 0x0c, 0x13, 0xec, 0x5f, 0x97, 0x44, 0x17, 0xc4, 0xa7, 0x7e, 0x3d, 0x64, 0x5d, 0x19, 0x73],
   [0x60, 0x81, 0x4f, 0xdc, 0x22, 0x2a, 0x90, 0x88, 0x46, 0xee, 0xb8, 0x14, 0xde, 0x5e, 0x0b, 0xdb],
   [0xe0, 0x32, 0x3a, 0x0a, 0x49, 0x06, 0x24, 0x5c, 0xc2, 0xd3, 0xac, 0x62, 0x91, 0x95, 0xe4, 0x79],
   [0xe7, 0xc8, 0x37, 0x6d, 0x8d, 0xd5, 0x4e, 0xa9, 0x6c, 0x56, 0xf4, 0xea, 0x65, 0x7a, 0xae, 0x08],
   [0xba, 0x78, 0x25, 0x2e, 0x1c, 0xa6, 0xb4, 0xc6, 0xe8, 0xdd, 0x74, 0x1f, 0x4b, 0xbd, 0x8b, 0x8a],
   [0x70, 0x3e, 0xb5, 0x66, 0x48, 0x03, 0xf6, 0x0e, 0x61, 0x35, 0x57, 0xb9, 0x86, 0xc1, 0x1d, 0x9e],
   [0xe1, 0xf8, 0x98, 0x11, 0x69, 0xd9, 0x8e, 0x94, 0x9b, 0x1e, 0x87, 0xe9, 0xce, 0x55, 0x28, 0xdf],
   [0x8c, 0xa1, 0x89, 0x0d, 0xbf, 0xe6, 0x42, 0x68, 0x41, 0x99, 0x2d, 0x0f, 0xb0, 0x54, 0xbb, 0x16]]

/-- `SBOX[x]` (R115): row the high digit of `x`, column the low digit. -/
def sbox (x : Byte) : Byte := ((sboxRows.getD (x.toNat / 16) []).getD (x.toNat % 16) 0)

/-- SubBytes (R115). -/
def subBytes (a : Block) : Block := Vector.ofFn fun j => sbox a[j]

/-- The byte offset ShiftRows takes offset `j` from: with row `r = j mod 4` and column `c = j div 4`
(R114), `4*((c + r) mod 4) + r` (R116). -/
def shiftRowsSource (j : Fin 16) : Fin 16 := ⟨4 * ((j.val / 4 + j.val % 4) % 4) + j.val % 4, by omega⟩

/-- ShiftRows (R116). -/
def shiftRows (t : Block) : Block := Vector.ofFn fun j => t[shiftRowsSource j]

/-- `2 • x` in the field of R117. -/
def xtime (x : Byte) : Byte := if x.toNat < 0x80 then x <<< 1 else (x <<< 1) ^^^ 0x1B

/-- `3 • x` (R117). -/
def xtime3 (x : Byte) : Byte := xtime x ^^^ x

/-- Row `r` of one column of MixColumns (R117). -/
def mixRow (r : Nat) (u0 u1 u2 u3 : Byte) : Byte :=
  match r with
  | 0 => xtime u0 ^^^ xtime3 u1 ^^^ u2 ^^^ u3
  | 1 => u0 ^^^ xtime u1 ^^^ xtime3 u2 ^^^ u3
  | 2 => u0 ^^^ u1 ^^^ xtime u2 ^^^ xtime3 u3
  | _ => xtime3 u0 ^^^ u1 ^^^ u2 ^^^ xtime u3

/-- Byte `r` of column `c` of a vector (R114). -/
def columnByte (u : Block) (c : Fin 4) (r : Fin 4) : Byte := u[4 * c.val + r.val]

/-- MixColumns (R117). -/
def mixColumns (u : Block) : Block := Vector.ofFn fun j =>
  let c : Fin 4 := ⟨j.val / 4, by omega⟩
  mixRow (j.val % 4) (columnByte u c 0) (columnByte u c 1) (columnByte u c 2) (columnByte u c 3)

/-- `AESRND(a, k)` (R119): SubBytes, ShiftRows, MixColumns, then AddRoundKey (R118), the key last
(spec/90_conflicts.md C3). -/
def aesRound (a k : Block) : Block := xor128 (mixColumns (shiftRows (subBytes a))) k

end Sys2Proof.Machine
end

