-- ==== Sys2Proof/Machine/Operands.lean ====
section
/-! DEFINITION. The operand forms: the latches, the SNAP file, and the data ports that connect them to
the dispatcher (spec/30_encoding.md R87, 40_vector_ops.md R111 to R113). -/

namespace Sys2Proof.Machine

/-! ### Single registers -/

/-- Write `S` as a whole. -/
def setMem (m : Memory) (s : State) : State := { s with mem := m }

/-- `NEXT <- v`. -/
def setNext (v : BitVec 9) (s : State) : State := { s with next := v }

/-- `INITED <- v`. -/
def setInited (v : Bool) (s : State) : State := { s with inited := v }

/-- `ROUND <- v`. -/
def setRound (v : BitVec 5) (s : State) : State := { s with round := v }

/-- `BR <- v`. -/
def setBr (v : BitVec 4) (s : State) : State := { s with br := v }

/-- `KP <- v`. -/
def setKp (v : BitVec 8) (s : State) : State := { s with kp := v }

/-- `I <- v`. -/
def setIdx (v : BitVec 4) (s : State) : State := { s with idx := v }

/-- `CNT <- v`. -/
def setCnt (v : BitVec 28) (s : State) : State := { s with cnt := v }

/-- The SEED operand arrives (R32). -/
def setSeed (v : Seed) (s : State) : State := { s with seed := v }

/-- The events still waiting. -/
def setInputs (v : List Event) (s : State) : State := { s with inputs := v }

/-- The port connections. -/
def setPorts (v : Ports) (s : State) : State := { s with ports := v }

/-! ### Latches, SNAP and the data ports -/

/-- What a latch holds (spec/10_state.md R28). -/
def readLatch (l : Latch) (s : State) : Block :=
  match l with
  | .even => s.latches.even
  | .odd => s.latches.odd
  | .key => s.latches.key
  | .f1 => s.latches.f1
  | .f2 => s.latches.f2
  | .prev => s.latches.prev
  | .inner => s.latches.inner
  | .t => s.latches.t

/-- Write a latch; the others keep their values. -/
def writeLatch (l : Latch) (v : Block) (s : State) : State :=
  match l with
  | .even => { s with latches := { s.latches with even := v } }
  | .odd => { s with latches := { s.latches with odd := v } }
  | .key => { s with latches := { s.latches with key := v } }
  | .f1 => { s with latches := { s.latches with f1 := v } }
  | .f2 => { s with latches := { s.latches with f2 := v } }
  | .prev => { s with latches := { s.latches with prev := v } }
  | .inner => { s with latches := { s.latches with inner := v } }
  | .t => { s with latches := { s.latches with t := v } }

/-- `SNAP[i]` (R29). -/
def readSnap (i : BitVec 4) (s : State) : Block := s.snap[i.toNat]'i.isLt

/-- `SNAP[i] <- v`. -/
def writeSnap (i : BitVec 4) (v : Block) (s : State) : State :=
  { s with snap := s.snap.set i.toNat v i.isLt }

/-- `SHUF[b]`: the SOURCE block of destination `b` (spec/10_state.md R27, 41_permutation.md R145). -/
def readShuf (b : BitVec 4) (s : State) : BitVec 4 := s.roms.shuf[b.toNat]'b.isLt

/-- Deliver a loaded vector to the storage the load port is connected to. -/
def writeLoadPort (v : Block) (s : State) : State :=
  match s.ports.load with
  | .latch l => writeLatch l v s
  | .snap i => writeSnap i v s

/-- The vector on the store port. -/
def readStorePort (s : State) : Block :=
  match s.ports.store with
  | .latch l => readLatch l s
  | .snap i => readSnap i s
  | .xor x y => xor128 (readLatch x s) (readLatch y s)

/-- Connect the load port. -/
def connectLoad (p : LoadPort) (s : State) : State := { s with ports := { s.ports with load := p } }

/-- Connect the store port. -/
def connectStore (p : StorePort) (s : State) : State := { s with ports := { s.ports with store := p } }

/-- Connect the AES unit: result latch, AES state input, round-key input. -/
def connectAes (result a k : Latch) (s : State) : State :=
  { s with ports := { s.ports with aesResult := result, aesState := a, aesKey := k } }

end Sys2Proof.Machine
end

