-- ==== Sys2Proof/Machine/Ops.lean ====
section
/-! DEFINITION. The shared operations: block access (spec/20_memory.md R51, R55), the dispatcher's load,
store and AES operations (40_vector_ops.md R110 to R113), sequencing, accepting and ending a command,
raising a fault (60_exceptions.md R196), and reset (70_reset_and_hazards.md R220). -/

namespace Sys2Proof.Machine

/-! ### Sequencing -/

/-- One operation after another, in program order (spec/20_memory.md R59). -/
def andThen {σ τ : Type} (o : Host.Outcome σ Fault Refusal) (f : σ → Host.Outcome τ Fault Refusal) :
    Host.Outcome τ Fault Refusal :=
  match o with
  | .next s => f s
  | .fault r => .fault r
  | .refused r => .refused r

/-- The counted loop `for i = a .. b` over the listed values, in order (spec/00_scope.md R13). -/
def forEach {α : Type} (body : α → State → Result) : List α → State → Result
  | [], s => .next s
  | a :: as, s => andThen (body a s) (forEach body as)

/-! ### Block access -/

/-- The three buffers a micro-operation can name (R50). -/
inductive Buf where
  | state | seed | rkrom
  deriving DecidableEq, Repr

/-- `MemRead(buf, idx)` (R51); none where the buffer has no block `idx` (R55). -/
def memRead (buf : Buf) (idx : Nat) (s : State) : Option Block :=
  match buf with
  | .state => if idx < 16 then some (readBlock s.mem idx) else none
  | .seed => s.seed[idx]?
  | .rkrom => s.roms.rk[idx]?

/-- `MemWrite(STATE, idx, v)` (R51); STATE is the only writable buffer. -/
def memWrite (idx : Nat) (v : Block) (s : State) : State := setMem (writeBlock s.mem idx v) s

/-! ### The dispatcher -/

/-- Record a micro-operation word in the trace (70_reset_and_hazards.md R226). Log 13. -/
def recordWord (w : BitVec 16) (s : State) : State := { s with issued := w :: s.issued }

/-- VLOAD from a buffer to the load port (R111). An index the buffer does not have is a reserved word,
refused (30_encoding.md R89). -/
def dispatchLoad (buf : Buf) (idx : Nat) (w : BitVec 16) (s : State) : Result :=
  match memRead buf idx s with
  | some v => .next (writeLoadPort v (recordWord w s))
  | none => .refused (.reservedMicroOp w)

/-- VSTORE from the store port to a block of STATE (R112). -/
def dispatchStore (idx : Nat) (w : BitVec 16) (s : State) : Result :=
  .next (memWrite idx (readStorePort s) (recordWord w s))

/-- VAESRND: both inputs are read before the result latch is written (R113). -/
def dispatchAes (w : BitVec 16) (s : State) : Result :=
  .next (writeLatch s.ports.aesResult
    (aesRound (readLatch s.ports.aesState s) (readLatch s.ports.aesKey s)) (recordWord w s))

/-! ### Free values -/

/-- The free latches of an epoch. -/
def freeLatches (epoch : Nat) : Latches :=
  { even := Config.freeBlock epoch 0, odd := Config.freeBlock epoch 1, key := Config.freeBlock epoch 2,
    f1 := Config.freeBlock epoch 3, f2 := Config.freeBlock epoch 4, prev := Config.freeBlock epoch 5,
    inner := Config.freeBlock epoch 6, t := Config.freeBlock epoch 7 }

/-- What does not survive a command holds no defined value after it (R20, R28 to R30, R32): the
latches, SNAP, the counters and SEED become free values. DESIGN CHOICE (log 6): they do not depend on what the
registers held. -/
def releaseWorking (s : State) : State :=
  { s with
    latches := freeLatches s.epoch
    snap := Vector.ofFn fun i => Config.freeBlock s.epoch (8 + i.val)
    seed := Vector.ofFn fun i => Config.freeBlock s.epoch (24 + i.val)
    round := Config.freeCounter 5 s.epoch 0
    br := Config.freeCounter 4 s.epoch 1
    kp := Config.freeCounter 8 s.epoch 2
    idx := Config.freeCounter 4 s.epoch 3
    cnt := Config.freeCounter 28 s.epoch 4
    epoch := s.epoch + 1 }

/-! ### Commands -/

/-- The start of a command: its trace is empty. -/
def acceptCommand (s : State) : State := { s with issued := [] }

/-- `respond(status, data)` (spec/00_scope.md R13, 30_encoding.md R90): the response is given and the
command is over. -/
def respond (status : Status) (data : List Byte) (s : State) : State :=
  { releaseWorking s with response := some { status := status, data := data } }

/-- `raise F` (spec/60_exceptions.md R196): the command ends with the fault's STATUS and no DATA; S, NEXT
and INITED are as before it. Nothing is saved and control goes nowhere: there is no handler, and no
return (R197). -/
def raise (f : CommandFault) (s : State) : State := respond (faultStatus f) [] s

/-! ### The host's events -/

/-- The SEED operand reaches the SEED buffer with INIT and RESEED; beside any other instruction it is
ignored (30_encoding.md R84, 10_state.md R32). -/
def presentSeed (i : Instr) (seed : Seed) (s : State) : State :=
  match i with
  | .init => setSeed seed s
  | .reseed => setSeed seed s
  | .genbyte => s
  | .generate _ => s
  | .vloadState _ => s
  | .vloadSeed _ => s
  | .vloadRkrom _ => s
  | .vstoreState _ => s
  | .vaesrnd => s

/-- The state buffer after a reset event: all 256 bytes free. DESIGN CHOICE (log 7): each block is an
unconstrained function of the whole state before the event, so that S after a reset MAY DEPEND ON S BEFORE IT;
it may be kept, cleared, or anything else (10_state.md R38, 70_reset_and_hazards.md R222, U1, U9, U18). -/
def freeBuffer (s : State) : Memory :=
  (List.range 16).foldl (fun m b => writeBlock m b (Config.resetBlock s b)) s.mem

/-- The reset event (70_reset_and_hazards.md R220, R222), on the state that still lists it: INITED is cleared,
the ROMs keep their contents, every other value is unspecified, there is no response. Log 6, log 7. -/
def resetEvent (s : State) : State :=
  { releaseWorking s with
    inited := false
    mem := freeBuffer s
    next := Config.resetCursor s
    response := none
    issued := [] }

/-- A command word that is no instruction: IllegalCommand (30_encoding.md R85, R86). -/
def raiseIllegal (s : State) : State := raise .illegalCommand (acceptCommand s)

end Sys2Proof.Machine
end

