-- ==== Sys2Proof/Machine/VectorOps.lean ====
section
/-! DEFINITION. The vector-operation dispatcher: VLOAD, VSTORE and VAESRND (spec/40_vector_ops.md). They
write no flag and raise nothing (R110). -/

namespace Sys2Proof.Machine

/-- VLOAD dst, STATE[i] (R111). -/
def execVloadState (i : BitVec 4) (s : State) : Result := dispatchLoad .state i.toNat (vloadStateWord i) s

/-- VLOAD dst, SEED[i] (R111); `i` = 15 is reserved (30_encoding.md R89). -/
def execVloadSeed (i : BitVec 4) (s : State) : Result := dispatchLoad .seed i.toNat (vloadSeedWord i) s

/-- VLOAD dst, RKROM[k] (R111); `k` above 135 is reserved (30_encoding.md R89). -/
def execVloadRkrom (k : BitVec 8) (s : State) : Result := dispatchLoad .rkrom k.toNat (vloadRkromWord k) s

/-- VSTORE STATE[i], src (R112). -/
def execVstoreState (i : BitVec 4) (s : State) : Result := dispatchStore i.toNat (vstoreStateWord i) s

/-- VAESRND dst, a, k (R113). -/
def execVaesrnd (s : State) : Result := dispatchAes vaesrndWord s

end Sys2Proof.Machine
end

