-- ==== Sys2Proof/Machine/Permutation.lean ====
section
/-! DEFINITION. The permutation engine: KNEXT, BRANCH, FROUND, BSHUF, PERMUTE, as the micro-operation
sequences of spec/41_permutation.md. -/

namespace Sys2Proof.Machine

/-- KNEXT (R141): `KEY <- RK[KP]; KP <- KP + 1`. -/
def knext (s : State) : Result :=
  andThen (execVloadRkrom s.kp (connectLoad (.latch .key) s)) fun s => .next (setKp (s.kp + 1) s)

/-- BRANCH(b) (R143). The even block is the AES state input of the first round and the odd block the
round-key input of the second (spec/90_conflicts.md C2). -/
def branch (b : BitVec 4) (s : State) : Result :=
  andThen (execVloadState b (connectLoad (.latch .even) s)) fun s =>
  andThen (execVloadState (b + 1) (connectLoad (.latch .odd) s)) fun s =>
  andThen (knext s) fun s =>
  andThen (execVaesrnd (connectAes .f1 .even .key s)) fun s =>
  andThen (execVaesrnd (connectAes .f2 .f1 .odd s)) fun s =>
  execVstoreState (b + 1) (connectStore (.latch .f2) s)

/-- The even block indices, in the order of R144. -/
def evenIndices : List (BitVec 4) := [0, 2, 4, 6, 8, 10, 12, 14]

/-- FROUND (R144): `for BR = 0, 2, .., 14: BRANCH(BR)`. -/
def fround (s : State) : Result :=
  forEach (fun b s => branch b (setBr b s)) evenIndices s

/-- The block indices 0 to 15. -/
def blockIndices : List (BitVec 4) := [0, 1, 2, 3, 4, 5, 6, 7, 8, 9, 10, 11, 12, 13, 14, 15]

/-- The first loop of BSHUF: `for I = 0 .. 15: SNAP[I] <- S[I]` (R145). -/
def snapshot (s : State) : Result :=
  forEach (fun i s => execVloadState i (connectLoad (.snap i) (setIdx i s))) blockIndices s

/-- The second loop of BSHUF: `for I = 0 .. 15: S[I] <- SNAP[SHUF[I]]` (R145). -/
def gatherSnapshot (s : State) : Result :=
  forEach (fun i s => execVstoreState i (connectStore (.snap (readShuf i s)) (setIdx i s))) blockIndices s

/-- BSHUF (R145): the full snapshot is taken before any block is overwritten (R225). -/
def bshuf (s : State) : Result := andThen (snapshot s) gatherSnapshot

/-- The round numbers 0 to 16. -/
def roundNumbers : List (BitVec 5) := [0, 1, 2, 3, 4, 5, 6, 7, 8, 9, 10, 11, 12, 13, 14, 15, 16]

/-- PERMUTE (R146): `KP <- 0`, then 17 rounds of FROUND and BSHUF. -/
def permute (s : State) : Result :=
  forEach (fun r s => andThen (fround (setRound r s)) bshuf) roundNumbers (setKp 0 s)

end Sys2Proof.Machine
end

