-- ==== Sys2Proof/Machine/Sponge.lean ====
section
/-! DEFINITION. The sponge state machine: ABSORB, REGEN, NEXTBYTE and the four host commands
(spec/42_sponge.md). -/

namespace Sys2Proof.Machine

/-- The values of `I` in ABSORB: 0 to 14. -/
def seedIndices : List (BitVec 4) := [0, 1, 2, 3, 4, 5, 6, 7, 8, 9, 10, 11, 12, 13, 14]

/-- One step of ABSORB: `S[I+1] <- S[I+1] XOR SEED[I]`, through the latches T and KEY (R161). -/
def absorbBlock (i : BitVec 4) (s : State) : Result :=
  andThen (execVloadState (i + 1) (connectLoad (.latch .t) (setIdx i s))) fun s =>
  andThen (execVloadSeed i (connectLoad (.latch .key) s)) fun s =>
  execVstoreState (i + 1) (connectStore (.xor .t .key) s)

/-- ABSORB (R161): the seed in the SEED buffer is XORed into the rate region. -/
def absorb (s : State) : Result := forEach absorbBlock seedIndices s

/-- REGEN (R162): the permutation with feed-forward. `PREV` is taken before PERMUTE starts (R229). -/
def regen (s : State) : Result :=
  andThen (execVloadState 0 (connectLoad (.latch .prev) s)) fun s =>
  andThen (permute s) fun s =>
  andThen (execVloadState 0 (connectLoad (.latch .inner) s)) fun s =>
  execVstoreState 0 (connectStore (.xor .inner .prev) s)

/-- The lazy regeneration of NEXTBYTE: `if NEXT >= 256: REGEN; NEXT <- 16` (R165, R230). -/
def refill (s : State) : Result :=
  if exhausted s then andThen (regen s) fun s => .next (setNext 16 s) else .next s

/-- NEXTBYTE (R165): refill if Exhausted, read `S.byte[NEXT]`, then increment NEXT (R230). A cursor outside
16 to 256 has no meaning (U7, D28): log 9. -/
def nextByte (s : State) : Host.Outcome (Byte × State) Fault Refusal :=
  if cursorInRange s then
    andThen (refill s) fun s => .next (readByte s.mem s.next.toNat, setNext (s.next + 1) s)
  else .refused (.cursorOutOfRange s.next)

/-- The loop of GENERATE: `while CNT > 0: out <- out ++ [NEXTBYTE()]; CNT <- CNT - 1` (R166). `fuel` bounds the
recursion; the loop is started with the value of CNT. -/
def generateLoop : (fuel : Nat) → List Byte → State → Host.Outcome (List Byte × State) Fault Refusal
  | 0, out, s => .next (out, s)
  | fuel + 1, out, s =>
    if s.cnt = 0 then .next (out, s)
    else andThen (nextByte s) fun r =>
      generateLoop fuel (out ++ [r.1]) (setCnt (r.2.cnt - 1) r.2)

/-- INIT (R163). -/
def execInit (s : State) : Result :=
  andThen (absorb (setNext 256 (setNext 0 (setMem (zeroBuffer s.mem) (acceptCommand s))))) fun s =>
  .next (respond .ok [] (setInited true s))

/-- RESEED (R164). -/
def execReseed (s : State) : Result :=
  if s.inited then andThen (absorb (acceptCommand s)) fun s => .next (respond .ok [] s)
  else .next (raise .uninitialised (acceptCommand s))

/-- GENBYTE (R165). -/
def execGenbyte (s : State) : Result :=
  if s.inited then andThen (nextByte (acceptCommand s)) fun r => .next (respond .ok [r.1] r.2)
  else .next (raise .uninitialised (acceptCommand s))

/-- GENERATE n (R166). -/
def execGenerate (n : BitVec 28) (s : State) : Result :=
  if s.inited then
    andThen (generateLoop n.toNat [] (setCnt n (acceptCommand s))) fun r => .next (respond .ok r.1 r.2)
  else .next (raise .uninitialised (acceptCommand s))

end Sys2Proof.Machine
end

