-- ==== Sys2Proof/Machine/Dispatch.lean ====
section
/-! DEFINITION. The one match that gives every instruction its meaning. -/

namespace Sys2Proof.Machine

/-- One instruction. -/
def exec (i : Instr) (s : State) : Host.Outcome State Fault Refusal :=
  match i with
  | .init => Sys2Proof.Machine.execInit s
  | .reseed => Sys2Proof.Machine.execReseed s
  | .genbyte => Sys2Proof.Machine.execGenbyte s
  | .generate count => Sys2Proof.Machine.execGenerate count s
  | .vloadState idx => Sys2Proof.Machine.execVloadState idx s
  | .vloadSeed idx => Sys2Proof.Machine.execVloadSeed idx s
  | .vloadRkrom k => Sys2Proof.Machine.execVloadRkrom k s
  | .vstoreState idx => Sys2Proof.Machine.execVstoreState idx s
  | .vaesrnd => Sys2Proof.Machine.execVaesrnd s

end Sys2Proof.Machine
end

