-- ==== Sys2Proof/Machine/Step.lean ====
section
/-! DEFINITION. One step: the oldest event not yet taken (spec/60_exceptions.md R200, R203). -/

namespace Sys2Proof.Machine

/-- One step. With no event the CORE is idle (60_exceptions.md R201, log 15). A command word is decoded
first: an illegal one raises IllegalCommand (30_encoding.md R85, R86), a legal one runs with its SEED
operand. A reserved micro-operation word is refused (R89). -/
def step (s : State) : Host.Outcome State Fault Refusal :=
  match s.inputs with
  | [] => .next s
  | .reset :: rest => .next (setInputs rest (resetEvent s))
  | .cutCommand _ _ :: rest => .next (setInputs rest (resetEvent s))
  | .command cmd seed :: rest =>
    match decodeCommand cmd with
    | .ok i => exec i (presentSeed i seed (setInputs rest s))
    | .error _ => .next (raiseIllegal (setInputs rest s))
  | .issue vop ports :: rest =>
    match decodeMicroOp vop with
    | .ok i => exec i (setPorts ports (setInputs rest s))
    | .error _ => .refused (.reservedMicroOp vop)

/-- The event that presents an encoded word: a command word with an all-zero SEED operand, or a
micro-operation word with the port connections `ports`. -/
def wordEvent (ports : Ports) : CodeWord → Event
  | .command cmd => .command cmd (Vector.ofFn fun _ => constBlock 0)
  | .microOp vop => .issue vop ports

/-- The state whose next event presents the `nbits`-bit word `w`. Log 1, log 2. -/
def State.withFetchWord (s : State) (nbits w : Nat) : State :=
  setInputs (wordEvent s.ports (tableWord nbits w) :: s.inputs) s

end Sys2Proof.Machine
end

