-- ==== Sys2Proof/Machine/Reference.lean ====
section
/-! DEFINITION. The routines of the CORE as functions on the 16 blocks of the state buffer, and the words
they issue, written apart from the machine: what the statements compare the machine with. The machine
never uses a definition of this file. -/

namespace Sys2Proof.Machine

/-- The 16 blocks `S[0]` to `S[15]`. -/
abbrev Blocks := Vector Block 16

/-- The blocks of a state buffer (spec/00_scope.md R11). -/
def blocksOf (m : Memory) : Blocks := Vector.ofFn fun b => readBlock m b.val

/-- The Feistel part of a round: the 8 odd blocks at once, each with its own key
(spec/41_permutation.md R143, R144). -/
def refRound (key : Fin 8 → Block) (S : Blocks) : Blocks := Vector.ofFn fun b =>
  if b.val % 2 = 0 then S[b]
  else aesRound (aesRound (S[b.val - 1]) (key ⟨b.val / 2, by omega⟩)) S[b]

/-- The block shuffle, destination by destination: block `b` of the new state is block `shuf[b]` of the old
(R145). -/
def refShuffle (shuf : Vector (BitVec 4) 16) (S : Blocks) : Blocks :=
  Vector.ofFn fun b => S[shuf[b].toNat]'(shuf[b]).isLt

/-- The key of branch `j` of round `r`: `RK[8*r + j]` (R142). -/
def roundKey (roms : Roms) (r : Fin 17) (j : Fin 8) : Block := roms.rk[8 * r.val + j.val]

/-- The given rounds, in order. -/
def refRounds (roms : Roms) (rs : List (Fin 17)) (S : Blocks) : Blocks :=
  rs.foldl (fun S r => refShuffle roms.shuf (refRound (roundKey roms r) S)) S

/-- PERMUTE: 17 rounds, the shuffle after every one (R146). -/
def refPermute (roms : Roms) (S : Blocks) : Blocks := refRounds roms (List.finRange 17) S

/-- REGEN: the permutation with feed-forward into block 0 (spec/42_sponge.md R162). -/
def refRegen (roms : Roms) (S : Blocks) : Blocks :=
  (refPermute roms S).set 0 (xor128 (refPermute roms S)[0] S[0])

/-- ABSORB: the capacity block is kept, rate block `b` is XORed with seed block `b - 1` (R161). -/
def refAbsorb (seed : Seed) (S : Blocks) : Blocks := Vector.ofFn fun b =>
  if h : b.val = 0 then S[b] else xor128 S[b] (seed[b.val - 1]'(by omega))

/-- Byte `a` of the buffer, `S[a div 16].byte[a mod 16]` (spec/20_memory.md R53). -/
def refByte (S : Blocks) (a : Nat) (h : a < 256) : Byte :=
  (S[a / 16]'(by omega))[a % 16]'(Nat.mod_lt _ (by omega))

/-- NEXTBYTE on the blocks and the cursor: the byte, the new blocks and the new cursor (R165). -/
def refNextByte (roms : Roms) (S : Blocks) (n : Nat) : Byte × Blocks × Nat :=
  if h : n < 256 then (refByte S n h, S, n + 1)
  else (refByte (refRegen roms S) 16 (by omega), refRegen roms S, 17)

/-- `k` output bytes, the first first (R166). -/
def refGenerate (roms : Roms) : (k : Nat) → Blocks → Nat → List Byte × Blocks × Nat
  | 0, S, n => ([], S, n)
  | k + 1, S, n =>
    let r := refNextByte roms S n
    let q := refGenerate roms k r.2.1 r.2.2
    (r.1 :: q.1, q.2)

/-! ### The words issued, in order -/

/-- The six words of a branch update (spec/41_permutation.md R143). -/
def branchWords (b : BitVec 4) (k : BitVec 8) : List (BitVec 16) :=
  [vloadStateWord b, vloadStateWord (b + 1), vloadRkromWord k, vaesrndWord, vaesrndWord, vstoreStateWord (b + 1)]

/-- The words of FROUND when the next key is `k` (R144). -/
def froundWords (k : BitVec 8) : List (BitVec 16) :=
  evenIndices.flatMap fun b => branchWords b (k + b.setWidth 8 / 2)

/-- The words of BSHUF (R145). -/
def bshufWords : List (BitVec 16) := blockIndices.map vloadStateWord ++ blockIndices.map vstoreStateWord

/-- The words of PERMUTE (R146): round `r` starts at key `8*r` (R142). -/
def permuteWords : List (BitVec 16) :=
  roundNumbers.flatMap fun r => froundWords (8 * r.setWidth 8) ++ bshufWords

/-- How many words of a list are round-key loads, state loads, VAESRND and state stores (R147). -/
def wordCounts (ws : List (BitVec 16)) : Nat × Nat × Nat × Nat :=
  (ws.countP fun w => w.extractLsb' 8 8 = 0x60, ws.countP fun w => w.extractLsb' 4 12 = 0x400,
    ws.countP fun w => w = 0xC000, ws.countP fun w => w.extractLsb' 4 12 = 0x800)

/-- The words of REGEN (spec/42_sponge.md R162). -/
def regenWords : List (BitVec 16) := [0x4000] ++ permuteWords ++ [0x4000, 0x8000]

/-- The words of ABSORB (R161). -/
def absorbWords : List (BitVec 16) :=
  seedIndices.flatMap fun i => [vloadStateWord (i + 1), vloadSeedWord i, vstoreStateWord (i + 1)]

/-- The words of `k` NEXTBYTEs from cursor `n` (R165, R167). -/
def generateWords : (k : Nat) → (n : Nat) → List (BitVec 16)
  | 0, _ => []
  | k + 1, n => if n < 256 then generateWords k (n + 1) else regenWords ++ generateWords k 17

end Sys2Proof.Machine
end

