-- ==== Sys2Proof/WellFormed.lean ====
section
/-! DEFINITION. Which instructions the encoding admits: the index conditions of spec/30_encoding.md
R89 that an operand's width does not already enforce. -/

namespace Sys2Proof

/-- Well-formedness: a SEED block index is at most 14 and a round-key index at most 135
(spec/20_memory.md R55, 30_encoding.md R89). -/
def Instr.wf : Instr → Bool
  | .init => true
  | .reseed => true
  | .genbyte => true
  | .generate _ => true
  | .vloadState _ => true
  | .vloadSeed i => decide (i.toNat ≤ 14)
  | .vloadRkrom k => decide (k.toNat ≤ 135)
  | .vstoreState _ => true
  | .vaesrnd => true

end Sys2Proof
end

