-- ==== Sys2Proof/Safety.lean ====
section
/-! DEFINITION. What a safe run is: the invariant of the machine, the inputs a host can give, and what a
routine that runs inside a command leaves alone. -/

namespace Sys2Proof.Machine

/-- Between two commands, if INITED = 1 then `17 <= NEXT <= 256` (spec/10_state.md R35). -/
def cursorInv (s : State) : Prop := s.inited = true → 17 ≤ s.next.toNat ∧ s.next.toNat ≤ 256

/-- The machine's invariant: the state buffer is in canonical form and the cursor is where R35 says. -/
def stateInv (s : State) : Prop := Memory.wf s.mem ∧ cursorInv s

/-- An event a host can cause: anything but a micro-operation word (spec/20_memory.md R65,
60_exceptions.md R203). -/
def hostEvent (e : Event) : Prop :=
  match e with
  | .reset => True
  | .command _ _ => True
  | .cutCommand _ _ => True
  | .issue _ _ => False

/-- Every event waiting comes from a host. -/
def hostInputs (s : State) : Prop := ∀ e ∈ s.inputs, hostEvent e

/-- The architectural state that survives between commands, but for the trace, the inputs and the
response, is unchanged: S, NEXT, INITED, RK, SHUF (spec/10_state.md R20). -/
def sameArchitecture (s t : State) : Prop :=
  t.mem = s.mem ∧ t.next = s.next ∧ t.inited = s.inited ∧ t.roms = s.roms

/-- What every routine that moves blocks through the dispatcher leaves alone: NEXT, INITED, the two
ROMs, SEED, CNT, the response, the waiting inputs and the free-value counter
(spec/41_permutation.md R146, 42_sponge.md R161, R162). -/
structure RoutineFrame (s t : State) : Prop where
  next : t.next = s.next
  inited : t.inited = s.inited
  roms : t.roms = s.roms
  seed : t.seed = s.seed
  cnt : t.cnt = s.cnt
  response : t.response = s.response
  inputs : t.inputs = s.inputs
  epoch : t.epoch = s.epoch

/-- The routines of PERMUTE keep the latch PREV as well (spec/10_state.md R28). -/
structure PermuteFrame (s t : State) : Prop extends RoutineFrame s t where
  prev : t.latches.prev = s.latches.prev

/-- What a micro-operation that stores nothing leaves alone: everything but its destination and the trace
(spec/40_vector_ops.md R110, R111, R113). -/
structure DispatchFrame (s t : State) : Prop where
  mem : t.mem = s.mem
  next : t.next = s.next
  inited : t.inited = s.inited
  roms : t.roms = s.roms
  round : t.round = s.round
  br : t.br = s.br
  kp : t.kp = s.kp
  idx : t.idx = s.idx
  cnt : t.cnt = s.cnt
  seed : t.seed = s.seed
  response : t.response = s.response
  inputs : t.inputs = s.inputs
  ports : t.ports = s.ports
  epoch : t.epoch = s.epoch

/-- `t` holds `v` in the storage the load port of `s` is connected to, and every other latch and SNAP entry
as `s` does (R111). -/
def loadedOnly (v : Block) (s t : State) : Prop :=
  match s.ports.load with
  | .latch l => readLatch l t = v ∧ (∀ l', l' ≠ l → readLatch l' t = readLatch l' s) ∧ t.snap = s.snap
  | .snap i => readSnap i t = v ∧ (∀ j, j ≠ i → readSnap j t = readSnap j s) ∧ t.latches = s.latches

/-- Seed byte `r`, byte `r mod 16` of SEED block `r div 16` (spec/10_state.md R32). -/
def seedByte (seed : Seed) (r : Nat) (h : r < 240) : Byte :=
  (seed[r / 16]'(by omega))[r % 16]'(Nat.mod_lt _ (by omega))

/-- `n` GENBYTE commands, one after another: the bytes in order and the last state (spec/42_sponge.md R171). -/
def repeatGenbyte : (n : Nat) → State → Host.Outcome (List Byte × State) Fault Refusal
  | 0, s => .next ([], s)
  | n + 1, s =>
    andThen (exec .genbyte s) fun t =>
    andThen (repeatGenbyte n t) fun r => .next ((t.response.elim [] fun q => q.data) ++ r.1, r.2)

/-- A run of commands put straight to `exec`, counting the bytes returned and the permutations run: one
permutation issues the word of the last round key, `0x6087`, once (spec/41_permutation.md R142, R147). -/
def countedRun : List (Instr × Seed) → State → Host.Outcome (Nat × Nat × State) Fault Refusal
  | [], s => .next (0, 0, s)
  | (i, seed) :: cs, s =>
    andThen (exec i (presentSeed i seed s)) fun t =>
    andThen (countedRun cs t) fun r =>
      .next ((t.response.elim 0 fun q => q.data.length) + r.1, t.issued.count 0x6087 + r.2.1, r.2.2)

/-- The commands that neither create nor destroy the generator state: RESEED, GENBYTE, GENERATE. -/
def afterInit (i : Instr) : Prop :=
  match i with
  | .init => False
  | .reseed => True
  | .genbyte => True
  | .generate _ => True
  | .vloadState _ => False
  | .vloadSeed _ => False
  | .vloadRkrom _ => False
  | .vstoreState _ => False
  | .vaesrnd => False

/-- The trace a step leaves; none where it stops. -/
def traceOf (o : Host.Outcome State Fault Refusal) : Option (List (BitVec 16)) :=
  match o with
  | .next t => some t.issued
  | .fault _ => none
  | .refused _ => none

/-- One host command put to an otherwise idle CORE. -/
def presentCommand (cmd : BitVec 32) (seed : Seed) (s : State) : Host.Outcome State Fault Refusal :=
  step (setInputs [.command cmd seed] s)

/-- A sequence of host commands, each put to the CORE after the previous one has ended: the responses in
order and the state after the last (spec/60_exceptions.md R200). -/
def hostRun : List (BitVec 32 × Seed) → State → Host.Outcome (List (Option Response) × State) Fault Refusal
  | [], s => .next ([], s)
  | (cmd, seed) :: cs, s =>
    andThen (presentCommand cmd seed s) fun t =>
    andThen (hostRun cs t) fun r => .next (t.response :: r.1, r.2)

end Sys2Proof.Machine
end

