-- ==== Sys2Proof/Certificates/Slice0/Obligations.lean ====
section
/-! DEFINITION. The statements for the provers. "log n" is notes/assumptions/n.md. The field
`issued`, the trace of the micro-operation words, is the model's record: log 13. -/

open Sys2Proof Sys2Proof.Machine

/-! ### Encoding (spec/30_encoding.md) -/

/-- R82, R89: every well-formed instruction is what its own word decodes to, with every operand at every
value the encoding admits. -/
def Obligations.DecodeOfEncodeIsTheInstruction : Prop :=
  ∀ i : Instr, i.wf = true → decode (encode i) = .ok i

/-- R85, R89: a word that decodes is the word of the well-formed instruction it decodes to: no bit of a
legal word is ignored. -/
def Obligations.DecodedWordEncodesBack : Prop :=
  ∀ (w : CodeWord) (i : Instr), decode w = .ok i → i.wf = true ∧ encode i = w

/-- R85: the decoder of command words is the match and mask table, a word that matches no row raises
IllegalCommand, and no word matches two rows. -/
def Obligations.CommandWordsDecodeByMatchAndMask : Prop :=
  ∀ cmd : BitVec 32,
    (decodeCommand cmd = .ok .init ↔ cmd &&& 0xFFFFFFFF = 0x10000000) ∧
    (decodeCommand cmd = .ok .reseed ↔ cmd &&& 0xFFFFFFFF = 0x20000000) ∧
    (decodeCommand cmd = .ok .genbyte ↔ cmd &&& 0xFFFFFFFF = 0x30000000) ∧
    (∀ n, decodeCommand cmd = .ok (.generate n) ↔
      cmd &&& 0xF0000000 = 0x40000000 ∧ n = cmd.extractLsb' 0 28) ∧
    ((cmd &&& 0xFFFFFFFF ≠ 0x10000000 ∧ cmd &&& 0xFFFFFFFF ≠ 0x20000000 ∧ cmd &&& 0xFFFFFFFF ≠ 0x30000000 ∧
        cmd &&& 0xF0000000 ≠ 0x40000000) ↔ decodeCommand cmd = .error (.illegalCommand cmd)) ∧
    (decodeCommand cmd = .error (.illegalCommand cmd) → ∀ seed s, ∃ t, presentCommand cmd seed s = .next t ∧
      t.response = some { status := .errIllegal, data := [] }) ∧
    ¬ (cmd &&& 0xFFFFFFFF = 0x10000000 ∧ cmd &&& 0xFFFFFFFF = 0x20000000) ∧
    ¬ (cmd &&& 0xFFFFFFFF = 0x10000000 ∧ cmd &&& 0xFFFFFFFF = 0x30000000) ∧
    ¬ (cmd &&& 0xFFFFFFFF = 0x20000000 ∧ cmd &&& 0xFFFFFFFF = 0x30000000) ∧
    ¬ (cmd &&& 0xFFFFFFFF = 0x10000000 ∧ cmd &&& 0xF0000000 = 0x40000000) ∧
    ¬ (cmd &&& 0xFFFFFFFF = 0x20000000 ∧ cmd &&& 0xF0000000 = 0x40000000) ∧
    ¬ (cmd &&& 0xFFFFFFFF = 0x30000000 ∧ cmd &&& 0xF0000000 = 0x40000000)

/-- R89: the decoder of micro-operation words is the match and mask table with its index conditions, and a word that
meets none of the five conditions is reserved, and no other word is. -/
def Obligations.MicroOpWordsDecodeByMatchAndMask : Prop :=
  ∀ w : BitVec 16,
    (∀ i, decodeMicroOp w = .ok (.vloadState i) ↔ w &&& 0xFFF0 = 0x4000 ∧ i = w.extractLsb' 0 4) ∧
    (∀ i, decodeMicroOp w = .ok (.vloadSeed i) ↔ w &&& 0xFFF0 = 0x5000 ∧ i = w.extractLsb' 0 4 ∧ i ≠ 15) ∧
    (∀ k, decodeMicroOp w = .ok (.vloadRkrom k) ↔
      w &&& 0xFF00 = 0x6000 ∧ k = w.extractLsb' 0 8 ∧ k.toNat ≤ 135) ∧
    (∀ i, decodeMicroOp w = .ok (.vstoreState i) ↔ w &&& 0xFFF0 = 0x8000 ∧ i = w.extractLsb' 0 4) ∧
    (decodeMicroOp w = .ok .vaesrnd ↔ w &&& 0xFFFF = 0xC000) ∧
    ((w &&& 0xFFF0 ≠ 0x4000 ∧ ¬ (w &&& 0xFFF0 = 0x5000 ∧ w.extractLsb' 0 4 ≠ 15) ∧
        ¬ (w &&& 0xFF00 = 0x6000 ∧ (w.extractLsb' 0 8).toNat ≤ 135) ∧ w &&& 0xFFF0 ≠ 0x8000 ∧
        w &&& 0xFFFF ≠ 0xC000) ↔
      decodeMicroOp w = .error (.reservedMicroOp w)) ∧
    ((∀ i, decodeMicroOp w ≠ .ok i) ↔ decodeMicroOp w = .error (.reservedMicroOp w))

/-- R82, R89: words of every family, written out from the spec's table, decode to their instructions. -/
def Obligations.SpecWordsDecode : Prop :=
  decode (.command 0x10000000) = .ok .init ∧ decode (.command 0x20000000) = .ok .reseed ∧
  decode (.command 0x30000000) = .ok .genbyte ∧ decode (.command 0x400000F0) = .ok (.generate 240) ∧
  decode (.microOp 0x4003) = .ok (.vloadState 3) ∧ decode (.microOp 0x500E) = .ok (.vloadSeed 14) ∧
  decode (.microOp 0x6087) = .ok (.vloadRkrom 135) ∧ decode (.microOp 0x8001) = .ok (.vstoreState 1) ∧
  decode (.microOp 0xC000) = .ok .vaesrnd

/-! ### The step -/

/-- R85: a command word that decodes to `i` runs `i` on the state in which the word has been taken and its
SEED operand presented. -/
def Obligations.StepRunsTheDecodedCommand : Prop :=
  ∀ (s : State) (cmd : BitVec 32) (seed : Seed) (rest : List Event) (i : Instr),
    s.inputs = .command cmd seed :: rest → decodeCommand cmd = .ok i →
    step s = exec i (presentSeed i seed (setInputs rest s))

/-- R87 (log 2): a micro-operation word that decodes to `i` runs `i` on the state in which the word has been
taken and the ports connected. -/
def Obligations.StepRunsTheDecodedMicroOp : Prop :=
  ∀ (s : State) (w : BitVec 16) (ports : Ports) (rest : List Event) (i : Instr),
    s.inputs = .issue w ports :: rest → decodeMicroOp w = .ok i →
    step s = exec i (setPorts ports (setInputs rest s))

/-- R201 (log 15, the model's choice of an idle step): with nothing presented the CORE keeps its state. -/
def Obligations.IdleStepKeepsTheState : Prop :=
  ∀ s : State, s.inputs = [] → step s = .next s

/-- R86, R191, R196: a word with OP in 0, 5 .. 15, or with OP in 1, 2, 3 and COUNT not 0, answers ERR_ILLEGAL
with no data, whatever the state, and changes nothing of S, NEXT, INITED and the ROMs. -/
def Obligations.IllegalWordAnswersErrIllegal : Prop :=
  ∀ (s : State) (cmd : BitVec 32) (seed : Seed) (rest : List Event),
    s.inputs = .command cmd seed :: rest →
    (cmd.toNat / 2 ^ 28 = 0 ∨ 5 ≤ cmd.toNat / 2 ^ 28 ∨
      (1 ≤ cmd.toNat / 2 ^ 28 ∧ cmd.toNat / 2 ^ 28 ≤ 3 ∧ cmd.toNat % 2 ^ 28 ≠ 0)) →
    ∃ t, step s = .next t ∧ t.response = some { status := .errIllegal, data := [] } ∧
      sameArchitecture s t ∧ t.inputs = rest ∧ t.issued = []

/-- R89: a micro-operation word outside the five legal ranges is refused. -/
def Obligations.ReservedMicroOpWordIsRefused : Prop :=
  ∀ (s : State) (w : BitVec 16) (ports : Ports) (rest : List Event),
    s.inputs = .issue w ports :: rest →
    ¬ (0x4000 ≤ w.toNat ∧ w.toNat ≤ 0x400F) → ¬ (0x5000 ≤ w.toNat ∧ w.toNat ≤ 0x500E) →
    ¬ (0x6000 ≤ w.toNat ∧ w.toNat ≤ 0x6087) → ¬ (0x8000 ≤ w.toNat ∧ w.toNat ≤ 0x800F) → w.toNat ≠ 0xC000 →
    step s = .refused (.reservedMicroOp w)

/-- R191, R196: RESEED, GENBYTE and every GENERATE with INITED = 0 answer ERR_UNINIT with no data, issue no
micro-operation and change nothing of S, NEXT, INITED and the ROMs. -/
def Obligations.CommandsBeforeInitAnswerErrUninit : Prop :=
  ∀ (s : State) (i : Instr), s.inited = false → (i = .reseed ∨ i = .genbyte ∨ ∃ n, i = .generate n) →
    ∃ t, exec i s = .next t ∧ t.response = some { status := .errUninit, data := [] } ∧
      sameArchitecture s t ∧ t.inputs = s.inputs ∧ t.issued = []

/-- R195: IllegalCommand wins over Uninitialised; on an uninitialised CORE 0x30000001 answers ERR_ILLEGAL and
0x30000000 answers ERR_UNINIT. -/
def Obligations.IllegalCommandWinsOverUninitialised : Prop :=
  ∀ (s : State) (seed : Seed), s.inited = false →
    (∀ cmd, (∀ i, decodeCommand cmd ≠ .ok i) → ∃ t, presentCommand cmd seed s = .next t ∧
      t.response = some { status := .errIllegal, data := [] }) ∧
    (∃ t, presentCommand 0x30000001 seed s = .next t ∧ t.response = some { status := .errIllegal, data := [] }) ∧
    (∃ t, presentCommand 0x30000000 seed s = .next t ∧ t.response = some { status := .errUninit, data := [] })

/-- R84: a SEED operand presented with GENBYTE or GENERATE is ignored. -/
def Obligations.SeedBesideGenbyteAndGenerateIsIgnored : Prop :=
  ∀ (s : State) (seed seed' : Seed) (n : BitVec 28),
    presentCommand 0x30000000 seed s = presentCommand 0x30000000 seed' s ∧
    presentCommand (0x40000000 + n.setWidth 32) seed s = presentCommand (0x40000000 + n.setWidth 32) seed' s

/-! ### Block access and the dispatcher (spec/20_memory.md, 40_vector_ops.md) -/

/-- R51: MemRead returns the 16 bytes at `16*idx`; MemWrite sets them and changes no other byte; a read after
a write returns what was written. -/
def Obligations.BlockReadAndWrite : Prop :=
  ∀ s : State, Memory.wf s.mem →
    (∀ idx, idx < 16 → ∃ v, memRead .state idx s = some v ∧
      ∀ (j : Nat) (hj : j < 16), v[j] = readByte s.mem (16 * idx + j)) ∧
    (∀ (idx : Nat) (hi : idx < 15), ∃ v, memRead .seed idx s = some v ∧
      ∀ (j : Nat) (hj : j < 16), v[j] = seedByte s.seed (16 * idx + j) (by omega)) ∧
    (∀ (k : Nat) (hk : k < 136), memRead .rkrom k s = some s.roms.rk[k]) ∧
    (∀ (idx : Nat) (v : Block), idx < 16 →
      (∀ (j : Nat) (hj : j < 16), readByte (memWrite idx v s).mem (16 * idx + j) = v[j]) ∧
      (∀ a, a < 16 * idx ∨ 16 * idx + 16 ≤ a → readByte (memWrite idx v s).mem a = readByte s.mem a) ∧
      memRead .state idx (memWrite idx v s) = some v)

/-- R111: VLOAD STATE[i] delivers the 16 bytes at `16*i` to the connected latch or SNAP entry and changes
nothing else but the trace. -/
def Obligations.VloadStateLoadsItsBlock : Prop :=
  ∀ (i : BitVec 4) (s : State), ∃ v t, exec (.vloadState i) s = .next t ∧
    (∀ (j : Nat) (hj : j < 16), v[j] = readByte s.mem (16 * i.toNat + j)) ∧
    loadedOnly v s t ∧ DispatchFrame s t ∧ t.issued = (0x4000 + i.setWidth 16) :: s.issued

/-- R111: VLOAD SEED[i], i at most 14, delivers seed bytes `16*i` to `16*i + 15` and changes nothing else but
the trace. -/
def Obligations.VloadSeedLoadsItsBlock : Prop :=
  ∀ (i : BitVec 4) (s : State) (h : i.toNat ≤ 14), ∃ v t, exec (.vloadSeed i) s = .next t ∧
    (∀ (j : Nat) (hj : j < 16), v[j] = seedByte s.seed (16 * i.toNat + j) (by omega)) ∧
    loadedOnly v s t ∧ DispatchFrame s t ∧ t.issued = (0x5000 + i.setWidth 16) :: s.issued

/-- R111: VLOAD RKROM[k], k at most 135, delivers round key `k` and changes nothing else but the trace. -/
def Obligations.VloadRkromLoadsItsKey : Prop :=
  ∀ (k : BitVec 8) (s : State) (h : k.toNat ≤ 135), ∃ t, exec (.vloadRkrom k) s = .next t ∧
    loadedOnly s.roms.rk[k.toNat] s t ∧ DispatchFrame s t ∧ t.issued = (0x6000 + k.setWidth 16) :: s.issued

/-- R89: the reserved forms VLOAD SEED[15] and VLOAD RKROM[k] with k above 135 are refused, under the name of
their word. -/
def Obligations.ReservedLoadIndexIsRefused : Prop :=
  (∀ s : State, exec (.vloadSeed 15) s = .refused (.reservedMicroOp 0x500F)) ∧
  (∀ (k : BitVec 8) (s : State), 135 < k.toNat →
    exec (.vloadRkrom k) s = .refused (.reservedMicroOp (0x6000 + k.setWidth 16)))

/-- R112: VSTORE STATE[i] stores the 16 bytes on the store port at `16*i`; every other byte of S, every latch,
SNAP entry, counter, flag and the cursor are unchanged. -/
def Obligations.VstoreStoresItsBlockOnly : Prop :=
  ∀ (i : BitVec 4) (s : State), Memory.wf s.mem → ∃ t, exec (.vstoreState i) s = .next t ∧ Memory.wf t.mem ∧
    (∀ (j : Nat) (hj : j < 16), readByte t.mem (16 * i.toNat + j) = (readStorePort s)[j]) ∧
    (∀ a, a < 16 * i.toNat ∨ 16 * i.toNat + 16 ≤ a → readByte t.mem a = readByte s.mem a) ∧
    DispatchFrame (memWrite i.toNat (readStorePort s) s) t ∧ t.latches = s.latches ∧ t.snap = s.snap ∧
    t.next = s.next ∧ t.inited = s.inited ∧ t.roms = s.roms ∧ t.seed = s.seed ∧
    t.issued = (0x8000 + i.setWidth 16) :: s.issued

/-- R112, R121: what the store port carries: a latch, a SNAP entry, or the byte-wise exclusive-or of two
latches. -/
def Obligations.StorePortCarriesItsConnection : Prop :=
  ∀ s : State,
    (∀ l, s.ports.store = .latch l → readStorePort s = readLatch l s) ∧
    (∀ i, s.ports.store = .snap i → readStorePort s = readSnap i s) ∧
    (∀ x y, s.ports.store = .xor x y → ∀ (j : Nat) (hj : j < 16),
      (readStorePort s)[j] = (readLatch x s)[j] ^^^ (readLatch y s)[j])

/-- R113: VAESRND writes AESRND of its two input latches, both read before the write, to the result latch;
every other latch, SNAP and all else but the trace are unchanged. -/
def Obligations.VaesrndWritesTheRound : Prop :=
  ∀ s : State, ∃ t, exec .vaesrnd s = .next t ∧
    readLatch s.ports.aesResult t = aesRound (readLatch s.ports.aesState s) (readLatch s.ports.aesKey s) ∧
    (∀ l, l ≠ s.ports.aesResult → readLatch l t = readLatch l s) ∧ t.snap = s.snap ∧
    DispatchFrame s t ∧ t.issued = 0xC000 :: s.issued

/-- R119: the key is XORed last, `AESRND(a, k) = AESRND(a, 0) XOR k`. -/
def Obligations.AesKeyIsXoredLast : Prop :=
  ∀ (a k : Block) (j : Nat) (hj : j < 16),
    (aesRound a k)[j] = (aesRound a (constBlock 0))[j] ^^^ k[j]

/-- R119: for a fixed key the round is a bijection of the state input, and for a fixed state input a
bijection of the key. -/
def Obligations.AesRoundIsBijectiveInEachInput : Prop :=
  (∀ k : Block, Function.Bijective fun a => aesRound a k) ∧
  (∀ a : Block, Function.Bijective fun k => aesRound a k)

/-- R119: the round commutes with rotating the four columns, that is the byte offsets by 4, 8 or 12. -/
def Obligations.AesRoundCommutesWithColumnRotation : Prop :=
  ∀ (n : Nat) (a k : Block),
    let rot : Block → Block := fun v => Vector.ofFn fun j => v[(j.val + 4 * n) % 16]
    aesRound (rot a) (rot k) = rot (aesRound a k)

/-! ### The permutation engine (spec/41_permutation.md) -/

/-- R141: with KP at most 135, KNEXT puts round key KP into KEY and increments KP. -/
def Obligations.KnextFetchesTheNextKey : Prop :=
  ∀ (s : State) (h : s.kp.toNat ≤ 135), ∃ t, knext s = .next t ∧ t.latches.key = s.roms.rk[s.kp.toNat] ∧
    t.kp.toNat = s.kp.toNat + 1 ∧ t.mem = s.mem ∧ PermuteFrame s t

/-- R143: BRANCH(b) replaces block b + 1 by the two AES rounds, the even block first as AES state and the odd
block second as round key, and changes no other byte of S. -/
def Obligations.BranchUpdatesTheOddBlock : Prop :=
  ∀ (b : BitVec 4) (s : State) (h : s.kp.toNat ≤ 135), Memory.wf s.mem → b.toNat % 2 = 0 →
    ∃ t, branch b s = .next t ∧ PermuteFrame s t ∧ t.kp.toNat = s.kp.toNat + 1 ∧
      readBlock t.mem (b.toNat + 1) =
        aesRound (aesRound (readBlock s.mem b.toNat) s.roms.rk[s.kp.toNat]) (readBlock s.mem (b.toNat + 1)) ∧
      (∀ a, a < 16 * (b.toNat + 1) ∨ 16 * (b.toNat + 1) + 16 ≤ a → readByte t.mem a = readByte s.mem a)

/-- R144: FROUND is the parallel update of the 8 odd blocks, branch j with key KP + j. -/
def Obligations.FroundIsTheParallelUpdate : Prop :=
  ∀ (s : State) (r : Fin 17), Memory.wf s.mem → s.kp.toNat = 8 * r.val →
    ∃ t, fround s = .next t ∧ PermuteFrame s t ∧ t.kp.toNat = 8 * r.val + 8 ∧
      blocksOf t.mem = refRound (roundKey s.roms r) (blocksOf s.mem)

/-- R145: BSHUF moves whole blocks from the snapshot of the pre-shuffle state, destination by destination. -/
def Obligations.BshufGathersFromTheSnapshot : Prop :=
  ∀ s : State, Memory.wf s.mem →
    ∃ t, bshuf s = .next t ∧ PermuteFrame s t ∧ t.kp = s.kp ∧ blocksOf t.mem = refShuffle s.roms.shuf (blocksOf s.mem)

/-- R146, R142: PERMUTE, run as micro-operations on the buffer, is the 17 reference rounds on the 16 blocks; KP
ends at 136. -/
def Obligations.PermuteRefinesTheSeventeenRounds : Prop :=
  ∀ s : State, Memory.wf s.mem →
    ∃ t, permute s = .next t ∧ PermuteFrame s t ∧ Memory.wf t.mem ∧ t.kp = 136 ∧
      blocksOf t.mem = refPermute s.roms (blocksOf s.mem)

/-- R147 (the trace is the model's record: log 13): from every state one PERMUTE issues the words of `permuteWords`, in
that order: round by round those of the 8 branch updates, then those of BSHUF. In every round the branch updates
issue 8 key loads, 16 state loads, 16 VAESRND and 8 state stores, and BSHUF 16 state loads and 16 state stores; in
total 136 key loads, 544 state loads, 272 VAESRND and 408 state stores. -/
def Obligations.PermuteIssuesItsFixedWords : Prop :=
  (∀ s : State, Memory.wf s.mem → ∃ t, permute s = .next t ∧ t.issued = permuteWords.reverse ++ s.issued) ∧
  permuteWords = roundNumbers.flatMap (fun r => froundWords (8 * r.setWidth 8) ++ bshufWords) ∧
  (∀ r ∈ roundNumbers, wordCounts (froundWords (8 * r.setWidth 8)) = (8, 16, 16, 8)) ∧
  wordCounts bshufWords = (0, 16, 0, 16) ∧ wordCounts permuteWords = (136, 544, 272, 408) ∧
  roundNumbers.length = 17 ∧ permuteWords.length = 1360

/-- R150: with the shuffle table of R27, and whatever the round keys, the PERMUTE of the machine is a bijection on the
contents of S: equal results come from equal buffers, and every buffer is a result. -/
def Obligations.PermuteIsBijective : Prop :=
  (∀ s s' : State, Memory.wf s.mem → Memory.wf s'.mem → s.roms = s'.roms →
    s.roms.shuf = #v[7, 2, 13, 4, 11, 8, 3, 6, 15, 0, 9, 10, 1, 14, 5, 12] →
    ∃ t t', permute s = .next t ∧ permute s' = .next t' ∧ (t.mem = t'.mem → s.mem = s'.mem)) ∧
  (∀ (s : State) (m : Memory), Memory.wf m →
    s.roms.shuf = #v[7, 2, 13, 4, 11, 8, 3, 6, 15, 0, 9, 10, 1, 14, 5, 12] →
    ∃ m' t, Memory.wf m' ∧ permute (setMem m' s) = .next t ∧ t.mem = m)

/-! ### The sponge routines (spec/42_sponge.md) -/

/-- R161: ABSORB XORs seed byte r into byte 16 + r of S for the 240 r, keeps the capacity region, NEXT and INITED,
and issues 45 words. -/
def Obligations.AbsorbXorsTheSeedIntoTheRate : Prop :=
  ∀ s : State, Memory.wf s.mem → ∃ t, absorb s = .next t ∧ Memory.wf t.mem ∧
    (∀ a, a < 16 → readByte t.mem a = readByte s.mem a) ∧
    (∀ (r : Nat) (h : r < 240), readByte t.mem (16 + r) = readByte s.mem (16 + r) ^^^ seedByte s.seed r h) ∧
    RoutineFrame s t ∧ t.issued.length = s.issued.length + 45

/-- R161: ABSORB of the same seed twice restores S. -/
def Obligations.AbsorbTwiceRestoresTheBuffer : Prop :=
  ∀ s : State, Memory.wf s.mem → ∃ t u, absorb s = .next t ∧ absorb t = .next u ∧ u.mem = s.mem

/-- R162: REGEN, run as micro-operations, is the reference permutation with feed-forward; it does not write NEXT;
it issues 1363 words. -/
def Obligations.RegenRefinesFeedForward : Prop :=
  ∀ s : State, Memory.wf s.mem → ∃ t, regen s = .next t ∧ RoutineFrame s t ∧ Memory.wf t.mem ∧
    blocksOf t.mem = refRegen s.roms (blocksOf s.mem) ∧ t.issued.length = s.issued.length + 1363

/-! ### The host commands (spec/42_sponge.md) -/

/-- R163: INIT is legal in every state; after it S[0] is zero, byte 16 + r is seed byte r, NEXT is 256, INITED is 1,
the response is OK with no data; the ROMs and the waiting inputs are unchanged and no permutation has run. -/
def Obligations.InitCreatesTheGeneratorState : Prop :=
  ∀ s : State, Memory.wf s.mem → ∃ t, exec .init s = .next t ∧ Memory.wf t.mem ∧
    (∀ a, a < 16 → readByte t.mem a = 0) ∧
    (∀ (r : Nat) (h : r < 240), readByte t.mem (16 + r) = seedByte s.seed r h) ∧
    t.next.toNat = 256 ∧ t.inited = true ∧ t.response = some { status := .ok, data := [] } ∧
    t.roms = s.roms ∧ t.inputs = s.inputs ∧ t.issued.length = 45 ∧ t.issued.count 0x6087 = 0

/-- R163: INIT discards the old state: from any two states with the same seed it leaves the same S, NEXT and
INITED. -/
def Obligations.InitDiscardsTheOldState : Prop :=
  ∀ s s' : State, Memory.wf s.mem → Memory.wf s'.mem → s.seed = s'.seed →
    ∃ t t', exec .init s = .next t ∧ exec .init s' = .next t' ∧
      t.mem = t'.mem ∧ t.next = t'.next ∧ t.inited = t'.inited ∧ t.response = t'.response

/-- R164: on an initialised CORE RESEED XORs the seed into the rate region and answers OK with no data; the capacity
region, NEXT, INITED, the ROMs and the waiting inputs are unchanged. -/
def Obligations.ReseedAbsorbsTheSeed : Prop :=
  ∀ s : State, Memory.wf s.mem → s.inited = true → ∃ t, exec .reseed s = .next t ∧ Memory.wf t.mem ∧
    (∀ a, a < 16 → readByte t.mem a = readByte s.mem a) ∧
    (∀ (r : Nat) (h : r < 240), readByte t.mem (16 + r) = readByte s.mem (16 + r) ^^^ seedByte s.seed r h) ∧
    t.next = s.next ∧ t.inited = true ∧ t.response = some { status := .ok, data := [] } ∧
    t.roms = s.roms ∧ t.inputs = s.inputs

/-- R164: two RESEEDs commute, and are one RESEED of the XOR of their seeds. -/
def Obligations.ReseedsCommuteAndCombine : Prop :=
  ∀ (s : State) (x y z : Seed), Memory.wf s.mem → s.inited = true →
    (∀ (i : Nat) (hi : i < 15) (j : Nat) (hj : j < 16), z[i][j] = x[i][j] ^^^ y[i][j]) →
    ∃ a b c d e, exec .reseed (presentSeed .reseed x s) = .next a ∧ exec .reseed (presentSeed .reseed y a) = .next b ∧
      exec .reseed (presentSeed .reseed y s) = .next c ∧ exec .reseed (presentSeed .reseed x c) = .next d ∧
      exec .reseed (presentSeed .reseed z s) = .next e ∧ b.mem = d.mem ∧ b.mem = e.mem ∧ b.next = s.next ∧
      d.next = s.next ∧ e.next = s.next

/-- R165: with unread output GENBYTE returns byte NEXT of S, increments NEXT, leaves S, INITED and the ROMs unchanged, and
issues no micro-operation. -/
def Obligations.GenbyteReturnsTheBufferedByte : Prop :=
  ∀ s : State, s.inited = true → 16 ≤ s.next.toNat → s.next.toNat < 256 →
    ∃ t, exec .genbyte s = .next t ∧
      t.response = some { status := .ok, data := [readByte s.mem s.next.toNat] } ∧
      t.next.toNat = s.next.toNat + 1 ∧ t.mem = s.mem ∧ t.inited = true ∧ t.roms = s.roms ∧
      t.inputs = s.inputs ∧ t.issued = []

/-- R165: when Exhausted GENBYTE runs REGEN, returns byte 16 of the new buffer and leaves NEXT at 17. -/
def Obligations.GenbyteRegeneratesWhenExhausted : Prop :=
  ∀ s : State, Memory.wf s.mem → s.inited = true → s.next.toNat = 256 →
    ∃ t, exec .genbyte s = .next t ∧ Memory.wf t.mem ∧
      blocksOf t.mem = refRegen s.roms (blocksOf s.mem) ∧
      t.response = some { status := .ok, data := [readByte t.mem 16] } ∧
      t.next.toNat = 17 ∧ t.inited = true ∧ t.roms = s.roms ∧ t.inputs = s.inputs ∧
      t.issued.length = 1363 ∧ t.issued.count 0x6087 = 1

/-- R166: GENERATE n returns the n bytes of the reference stream, first produced first, and leaves the buffer and
the cursor of the reference. -/
def Obligations.GenerateRefinesTheByteStream : Prop :=
  ∀ (n : BitVec 28) (s : State), Memory.wf s.mem → s.inited = true → 16 ≤ s.next.toNat → s.next.toNat ≤ 256 →
    ∃ t data, exec (.generate n) s = .next t ∧ Memory.wf t.mem ∧
      t.response = some { status := .ok, data := data } ∧ data.length = n.toNat ∧
      (data, blocksOf t.mem, t.next.toNat) = refGenerate s.roms n.toNat (blocksOf s.mem) s.next.toNat ∧
      t.inited = true ∧ t.roms = s.roms ∧ t.inputs = s.inputs

/-- R166: GENERATE 0 on an initialised CORE returns no byte, changes nothing of S, NEXT, INITED and the ROMs, and runs no
REGEN, even when Exhausted. -/
def Obligations.GenerateZeroChangesNothing : Prop :=
  ∀ s : State, s.inited = true → ∃ t, exec (.generate 0) s = .next t ∧
    t.response = some { status := .ok, data := [] } ∧ sameArchitecture s t ∧ t.inputs = s.inputs ∧ t.issued = []

/-- U7, D28 (log 9): a byte read with NEXT below 16 or above 256, which no run reaches, has no meaning: GENBYTE and
GENERATE of at least one byte refuse. -/
def Obligations.CursorOutOfRangeIsRefused : Prop :=
  ∀ s : State, s.inited = true → (s.next.toNat < 16 ∨ 256 < s.next.toNat) →
    exec .genbyte s = .refused (.cursorOutOfRange s.next) ∧
    ∀ n : BitVec 28, n ≠ 0 → exec (.generate n) s = .refused (.cursorOutOfRange s.next)

/-! ### Laws of the sponge (spec/42_sponge.md section 4) -/

/-- R171: GENERATE a, then GENERATE b, returns the bytes and leaves the S, NEXT and INITED of GENERATE (a + b); and
GENERATE n those of n GENBYTEs. -/
def Obligations.GenerateSplits : Prop :=
  ∀ s : State, Memory.wf s.mem → s.inited = true → 16 ≤ s.next.toNat → s.next.toNat ≤ 256 →
    (∀ (a b : BitVec 28), a.toNat + b.toNat < 2 ^ 28 → ∃ t u v da db,
      exec (.generate a) s = .next t ∧ exec (.generate b) t = .next u ∧ exec (.generate (a + b)) s = .next v ∧
      t.response = some { status := .ok, data := da } ∧ u.response = some { status := .ok, data := db } ∧
      v.response = some { status := .ok, data := da ++ db } ∧
      u.mem = v.mem ∧ u.next = v.next ∧ u.inited = v.inited) ∧
    (∀ n : BitVec 28, ∃ t u data, exec (.generate n) s = .next t ∧ repeatGenbyte n.toNat s = .next (data, u) ∧
      t.response = some { status := .ok, data := data } ∧ t.mem = u.mem ∧ t.next = u.next ∧ t.inited = u.inited)

/-- R167: after INIT and any RESEED, GENBYTE and GENERATE commands that returned N bytes in total, ceil(N / 240)
permutations have run since that INIT, and NEXT is 256 if 240 divides N, else 16 + N mod 240. -/
def Obligations.PermutationCadence : Prop :=
  ∀ (s : State) (cs : List (Instr × Seed)), Memory.wf s.mem → (∀ c ∈ cs, afterInit c.1) →
    ∃ t N p u, exec .init s = .next t ∧ countedRun cs t = .next (N, p, u) ∧ p = (N + 239) / 240 ∧
      u.next.toNat = if N % 240 = 0 then 256 else 16 + N % 240

/-- R168: the byte GENBYTE returns is byte `a` of S with `16 <= a <= 255`, never one of the capacity region. -/
def Obligations.OutputBytesComeFromTheRate : Prop :=
  ∀ s : State, Memory.wf s.mem → s.inited = true → 16 ≤ s.next.toNat → s.next.toNat ≤ 256 →
    ∃ t a, exec .genbyte s = .next t ∧ 16 ≤ a ∧ a ≤ 255 ∧ t.next.toNat = a + 1 ∧
      t.response = some { status := .ok, data := [readByte t.mem a] }

/-- R168: until the next permutation the output does not depend on the capacity region: two initialised states with
the same cursor and the same rate region give the same response to every request that the batch can serve. -/
def Obligations.CapacityDoesNotReachTheBatch : Prop :=
  ∀ (s s' : State) (n : BitVec 28), s.inited = true → s'.inited = true → s.next = s'.next →
    16 ≤ s.next.toNat → s.next.toNat + n.toNat ≤ 256 →
    (∀ a, 16 ≤ a → a < 256 → readByte s.mem a = readByte s'.mem a) →
    ∃ t t', exec (.generate n) s = .next t ∧ exec (.generate n) s' = .next t' ∧ t.response = t'.response

/-- R169: after a RESEED with NEXT = n the next 256 - n bytes are the unread bytes of the batch XOR the seed bytes at
the same rate positions. -/
def Obligations.ReseedShowsInTheUnreadBytes : Prop :=
  ∀ (s : State) (k : BitVec 28), Memory.wf s.mem → s.inited = true → 17 ≤ s.next.toNat → s.next.toNat ≤ 256 →
    s.next.toNat + k.toNat ≤ 256 →
    ∃ t u data, exec .reseed s = .next t ∧ exec (.generate k) t = .next u ∧
      u.response = some { status := .ok, data := data } ∧ data.length = k.toNat ∧
      ∀ (i : Nat) (hi : i < data.length) (hr : s.next.toNat + i - 16 < 240),
        data[i] = readByte s.mem (s.next.toNat + i) ^^^ seedByte s.seed (s.next.toNat + i - 16) hr

/-- R170: the responses after an INIT are a function of the round-key table and of the commands from that INIT on:
from any two states with the same ROMs the same run gives the same responses, S, NEXT and INITED. -/
def Obligations.RunsDependOnKeysAndCommandsOnly : Prop :=
  ∀ (s s' : State) (seed : Seed) (cs : List (BitVec 32 × Seed)), Memory.wf s.mem → Memory.wf s'.mem →
    s.roms = s'.roms →
    ∃ rs t t', hostRun ((0x10000000, seed) :: cs) s = .next (rs, t) ∧
      hostRun ((0x10000000, seed) :: cs) s' = .next (rs, t') ∧
      t.mem = t'.mem ∧ t.next = t'.next ∧ t.inited = t'.inited

/-- R224: the first byte after INIT is regenerated: it is byte 16 of REGEN of the freshly absorbed buffer, whatever
the seed. -/
def Obligations.FirstByteAfterInitIsRegenerated : Prop :=
  ∀ s : State, Memory.wf s.mem → ∃ t u, exec .init s = .next t ∧ exec .genbyte t = .next u ∧
    blocksOf u.mem = refRegen s.roms (blocksOf t.mem) ∧
    u.response = some { status := .ok, data := [readByte u.mem 16] } ∧ u.issued.count 0x6087 = 1

/-! ### Reset, invariants and whole-machine rules -/

/-- R38, R220: right after reset INITED is 0, the two ROMs hold their tables, and there is no response. -/
def Obligations.ResetLeavesTheCoreUninitialised : Prop :=
  State.reset.inited = false ∧ State.reset.response = none ∧ State.reset.inputs = [] ∧
  (∀ (k : Nat) (h : k < 136), State.reset.roms.rk[k] = Config.rkTable ⟨k, h⟩) ∧
  State.reset.roms.shuf = #v[7, 2, 13, 4, 11, 8, 3, 6, 15, 0, 9, 10, 1, 14, 5, 12]

/-- R220: the reset event clears INITED, keeps the ROMs, gives no response, and leaves the CORE ready for the next event;
R221: so does a reset that cuts a command short. -/
def Obligations.ResetEventClearsInited : Prop :=
  ∀ (s : State) (e : Event) (rest : List Event), s.inputs = e :: rest →
    (e = .reset ∨ ∃ cmd seed, e = .cutCommand cmd seed) →
    ∃ t, step s = .next t ∧ t.inited = false ∧ t.roms = s.roms ∧ t.response = none ∧ t.inputs = rest

/-- R35: the invariant holds right after reset. (That the buffer lists nothing there is the model's: log 3.) -/
def Obligations.InvariantAtReset : Prop := stateInv State.reset

/-- R35: every step keeps the invariant: the buffer in canonical form, and NEXT in 17 .. 256 whenever INITED is 1. -/
def Obligations.StepKeepsTheInvariant : Prop :=
  ∀ s t : State, stateInv s → step s = .next t → stateInv t

/-- R190, R194, R197: from every state with the invariant, whatever the host presents, the step answers a next state,
which has the invariant again: no operation can stop the CORE. -/
def Obligations.HostCannotStopTheCore : Prop :=
  ∀ s : State, stateInv s → hostInputs s → ∃ t, step s = .next t ∧ stateInv t ∧ hostInputs t

/-- R26, R27, R63: no step changes the round-key ROM or the shuffle ROM. -/
def Obligations.RomsNeverChange : Prop :=
  ∀ s t : State, stateInv s → step s = .next t → t.roms = s.roms

/-- R25: INITED is set by INIT only and cleared by reset only. -/
def Obligations.InitedIsSetByInitAndClearedByReset : Prop :=
  ∀ s t : State, stateInv s → step s = .next t →
    (s.inited = false → t.inited = true → ∃ seed rest, s.inputs = .command 0x10000000 seed :: rest) ∧
    (s.inited = true → t.inited = false →
      ∃ rest, s.inputs = .reset :: rest ∨ ∃ cmd seed, s.inputs = .cutCommand cmd seed :: rest)

/-- R22, R65: no host command but INIT and those that run a permutation changes a byte of the capacity region: a step
that issues no key load and is no INIT and no reset leaves bytes 0 to 15 as they were. -/
def Obligations.CapacityChangesOnlyByInitAndPermutation : Prop :=
  ∀ (s t : State) (cmd : BitVec 32) (seed : Seed) (rest : List Event), stateInv s →
    s.inputs = .command cmd seed :: rest → step s = .next t → cmd ≠ 0x10000000 → t.issued.count 0x6087 = 0 →
    ∀ a, a < 16 → readByte t.mem a = readByte s.mem a

/-- R226: the micro-operations a command issues are a function of its word, NEXT and INITED: two states that agree on
these issue the same words, whatever S, the seeds and the latches hold. -/
def Obligations.TraceIsIndependentOfSecrets : Prop :=
  ∀ (cmd : BitVec 32) (seed seed' : Seed) (s s' : State), Memory.wf s.mem → Memory.wf s'.mem →
    s.next = s'.next → s.inited = s'.inited →
    traceOf (presentCommand cmd seed s) = traceOf (presentCommand cmd seed' s')

/-- R150 (a), (b), of the machine. (a) BRANCH(b) is undone by `S[b] = S[b]'`,
`S[b+1] = S[b+1]' XOR AESRND(AESRND(S[b], key), 0)`. (b) FROUND, at every KP from which it has its 8 keys, and BSHUF,
with the shuffle table of R27, are bijections on the contents of S: equal results come from equal buffers, and every
buffer is a result. -/
def Obligations.BranchFroundAndBshufAreInvertible : Prop :=
  (∀ (b : BitVec 4) (s : State) (h : s.kp.toNat ≤ 135), Memory.wf s.mem → b.toNat % 2 = 0 →
    ∃ t, branch b s = .next t ∧ readBlock s.mem b.toNat = readBlock t.mem b.toNat ∧
      readBlock s.mem (b.toNat + 1) = xor128 (readBlock t.mem (b.toNat + 1))
        (aesRound (aesRound (readBlock t.mem b.toNat) s.roms.rk[s.kp.toNat]) (constBlock 0))) ∧
  (∀ s s' : State, Memory.wf s.mem → Memory.wf s'.mem → s.roms = s'.roms → s.kp = s'.kp → s.kp.toNat ≤ 128 →
    ∃ t t', fround s = .next t ∧ fround s' = .next t' ∧ (t.mem = t'.mem → s.mem = s'.mem)) ∧
  (∀ (s : State) (m : Memory), Memory.wf m → s.kp.toNat ≤ 128 →
    ∃ m' t, Memory.wf m' ∧ fround (setMem m' s) = .next t ∧ t.mem = m) ∧
  (∀ s s' : State, Memory.wf s.mem → Memory.wf s'.mem → s.roms = s'.roms →
    s.roms.shuf = #v[7, 2, 13, 4, 11, 8, 3, 6, 15, 0, 9, 10, 1, 14, 5, 12] →
    ∃ t t', bshuf s = .next t ∧ bshuf s' = .next t' ∧ (t.mem = t'.mem → s.mem = s'.mem)) ∧
  (∀ (s : State) (m : Memory), Memory.wf m →
    s.roms.shuf = #v[7, 2, 13, 4, 11, 8, 3, 6, 15, 0, 9, 10, 1, 14, 5, 12] →
    ∃ m' t, Memory.wf m' ∧ bshuf (setMem m' s) = .next t ∧ t.mem = m)
end

