-- ==== Sys2Proof/Laws/Memory.lean ====
section
/-! SUPPORT. The laws of the state buffer: read after write, the canonical form, extensionality. -/

namespace Sys2Proof.Machine

/-- The canonical form of a tail. -/
theorem Memory.wf_tail {c : Host.Cell} {m : Memory} (h : Memory.wf (c :: m)) : Memory.wf m :=
  ⟨(List.pairwise_cons.mp h.1).2, fun x hx => h.2 x (List.mem_cons_of_mem _ hx)⟩

theorem Memory.wf_nil : Memory.wf [] := ⟨List.Pairwise.nil, by simp⟩

/-- An address that no entry holds reads as unlisted. -/
theorem readByte_of_not_mem {m : Memory} {a : Nat} (h : ∀ c ∈ m, c.1 ≠ a) : readByte m a = unlistedByte := by
  induction m with
  | nil => rfl
  | cons c m ih =>
    obtain ⟨b, v⟩ := c
    have hb : a ≠ b := fun e => h (b, v) (by simp) e.symm
    simp only [readByte, hb, if_false]
    exact ih fun c hc => h c (List.mem_cons_of_mem _ hc)

/-- In canonical form every address below the first entry's reads as unlisted. -/
theorem readByte_below {b : Nat} {v : Byte} {m : Memory} (h : Memory.wf ((b, v) :: m)) {a : Nat} (ha : a < b) :
    readByte ((b, v) :: m) a = unlistedByte := by
  apply readByte_of_not_mem
  intro c hc
  rcases List.mem_cons.mp hc with rfl | hc
  · simp; omega
  · have := (List.pairwise_cons.mp h.1).1 c hc
    simp at this; omega

/-- The address of the first entry reads as unlisted in the tail. -/
theorem readByte_tail_self {b : Nat} {v : Byte} {m : Memory} (h : Memory.wf ((b, v) :: m)) :
    readByte m b = unlistedByte := by
  apply readByte_of_not_mem
  intro c hc
  have := (List.pairwise_cons.mp h.1).1 c hc
  simp at this; omega

/-- Read after write. -/
theorem readByte_writeByte {m : Memory} (h : Memory.wf m) (a a' : Nat) (v : Byte) :
    readByte (writeByte m a v) a' = if a' = a then v else readByte m a' := by
  induction m with
  | nil =>
    by_cases hv : v = unlistedByte
    · simp [writeByte, readByte, hv]
    · by_cases ha : a' = a <;> simp [writeByte, readByte, hv, ha]
  | cons c m ih =>
    obtain ⟨b, w⟩ := c
    have ih := ih (Memory.wf_tail h)
    unfold writeByte
    by_cases h1 : a < b
    · by_cases hv : v = unlistedByte
      · simp only [h1, hv, if_true]
        by_cases ha : a' = a
        · rw [if_pos ha, ha, readByte_below h h1]
        · rw [if_neg ha]
      · simp only [h1, hv, if_true, if_false]
        by_cases ha : a' = a <;> simp [readByte, ha]
    · by_cases h2 : a = b
      · subst h2
        by_cases hv : v = unlistedByte
        · simp only [h1, hv, if_true, if_false]
          by_cases ha : a' = a
          · rw [if_pos ha, ha, readByte_tail_self h]
          · rw [if_neg ha]; simp [readByte, ha]
        · simp only [h1, hv, if_true, if_false]
          by_cases ha : a' = a <;> simp [readByte, ha]
      · simp only [h1, h2, if_false, readByte]
        by_cases hb : a' = b
        · simp [hb, Ne.symm h2]
        · simp only [hb, if_false, ih]

/-- Every entry of a memory written at `a` is the written one or an old one. -/
theorem mem_writeByte {m : Memory} {a : Nat} {v : Byte} {c : Host.Cell} (hc : c ∈ writeByte m a v) :
    (c = (a, v) ∧ v ≠ unlistedByte) ∨ c ∈ m := by
  induction m with
  | nil =>
    by_cases hv : v = unlistedByte
    · simp [writeByte, hv] at hc
    · simp [writeByte, hv] at hc; exact .inl ⟨hc, hv⟩
  | cons d m ih =>
    obtain ⟨b, w⟩ := d
    unfold writeByte at hc
    split at hc
    · split at hc
      · exact .inr hc
      · rename_i hv
        rcases List.mem_cons.mp hc with h | h
        · exact .inl ⟨h, hv⟩
        · exact .inr h
    · split at hc
      · split at hc
        · exact .inr (List.mem_cons_of_mem _ hc)
        · rename_i hv
          rcases List.mem_cons.mp hc with h | h
          · exact .inl ⟨h, hv⟩
          · exact .inr (List.mem_cons_of_mem _ h)
      · rcases List.mem_cons.mp hc with h | h
        · exact .inr (h ▸ List.mem_cons_self ..)
        · rcases ih h with h | h
          · exact .inl h
          · exact .inr (List.mem_cons_of_mem _ h)

/-- A write of a byte of the buffer keeps the canonical form. -/
theorem writeByte_wf {m : Memory} (h : Memory.wf m) {a : Nat} (ha : a < stateBytes) (v : Byte) :
    Memory.wf (writeByte m a v) := by
  refine ⟨?_, fun c hc => ?_⟩
  · induction m with
    | nil => unfold writeByte; split <;> simp
    | cons d m ih =>
      obtain ⟨b, w⟩ := d
      have hp := List.pairwise_cons.mp h.1
      have ih := ih (Memory.wf_tail h)
      unfold writeByte
      split
      · rename_i hlt
        split
        · exact h.1
        · refine List.pairwise_cons.mpr ⟨fun c hc => ?_, h.1⟩
          rcases List.mem_cons.mp hc with rfl | hc
          · exact hlt
          · exact Nat.lt_trans hlt (hp.1 c hc)
      · split
        · rename_i heq
          split
          · exact hp.2
          · exact List.pairwise_cons.mpr ⟨fun c hc => heq ▸ hp.1 c hc, hp.2⟩
        · refine List.pairwise_cons.mpr ⟨fun c hc => ?_, ih⟩
          rcases mem_writeByte hc with ⟨rfl, _⟩ | hc
          · simp; omega
          · exact hp.1 c hc
  · rcases mem_writeByte hc with ⟨rfl, hv⟩ | hc
    · exact ⟨ha, hv⟩
    · exact h.2 c hc

/-- In canonical form an address outside the buffer reads as unlisted. -/
theorem readByte_outside {m : Memory} (h : Memory.wf m) {a : Nat} (ha : stateBytes ≤ a) :
    readByte m a = unlistedByte :=
  readByte_of_not_mem fun c hc e => by have := (h.2 c hc).1; omega

/-- Equal readings, equal memories: the canonical form is unique. -/
theorem Memory.ext_read {m m' : Memory} (h : Memory.wf m) (h' : Memory.wf m')
    (he : ∀ a, readByte m a = readByte m' a) : m = m' := by
  induction m generalizing m' with
  | nil =>
    cases m' with
    | nil => rfl
    | cons c m' =>
      obtain ⟨b, v⟩ := c
      exact absurd (by simpa [readByte] using (he b).symm) (h'.2 (b, v) (by simp)).2
  | cons c m ih =>
    obtain ⟨b, v⟩ := c
    have hv : v ≠ unlistedByte := (h.2 (b, v) (by simp)).2
    cases m' with
    | nil => exact absurd (by simpa [readByte] using he b) hv
    | cons c' m' =>
      obtain ⟨b', v'⟩ := c'
      have hv' : v' ≠ unlistedByte := (h'.2 (b', v') (by simp)).2
      have hbb : b = b' := by
        rcases Nat.lt_trichotomy b b' with hlt | heq | hgt
        · have := he b
          rw [readByte_below h' hlt] at this
          exact absurd (by simpa [readByte] using this) hv
        · exact heq
        · have := he b'
          rw [readByte_below h hgt] at this
          exact absurd (by simpa [readByte] using this.symm) hv'
      subst hbb
      have hvv : v = v' := by simpa [readByte] using he b
      subst hvv
      refine congrArg _ (ih (Memory.wf_tail h) (Memory.wf_tail h') fun a => ?_)
      by_cases ha : a = b
      · rw [ha, readByte_tail_self h, readByte_tail_self h']
      · simpa [readByte, ha] using he a

/-! ### Blocks -/

@[simp] theorem readBlock_getElem (m : Memory) (b j : Nat) (hj : j < 16) :
    (readBlock m b)[j] = readByte m (16 * b + j) := by
  simp [readBlock]

/-- Writing the bytes at the listed offsets of a block. -/
theorem writeOffsets_spec (b : Nat) (hb : b < 16) (v : Block) (js : List (Fin 16)) {m : Memory} (h : Memory.wf m) :
    Memory.wf (js.foldl (fun m j => writeByte m (16 * b + j.val) v[j]) m) ∧
    ∀ a, readByte (js.foldl (fun m j => writeByte m (16 * b + j.val) v[j]) m) a =
      if hj : ∃ j ∈ js, a = 16 * b + j.val then v[a - 16 * b]'(by obtain ⟨j, _, rfl⟩ := hj; omega)
      else readByte m a := by
  induction js generalizing m with
  | nil => exact ⟨h, fun a => by simp⟩
  | cons j js ih =>
    have hw : Memory.wf (writeByte m (16 * b + j.val) v[j]) :=
      writeByte_wf h (by have := j.isLt; simp only [stateBytes]; omega) _
    obtain ⟨i1, i2⟩ := ih hw
    refine ⟨i1, fun a => ?_⟩
    rw [List.foldl_cons, i2 a, readByte_writeByte h]
    by_cases h1 : ∃ k ∈ js, a = 16 * b + k.val
    · have h2 : ∃ k ∈ j :: js, a = 16 * b + k.val := by
        obtain ⟨k, hk, e⟩ := h1; exact ⟨k, List.mem_cons_of_mem _ hk, e⟩
      rw [dif_pos h1, dif_pos h2]
    · rw [dif_neg h1]
      by_cases h3 : a = 16 * b + j.val
      · have h2 : ∃ k ∈ j :: js, a = 16 * b + k.val := ⟨j, by simp, h3⟩
        rw [if_pos h3, dif_pos h2]
        subst h3
        simp
      · have h2 : ¬ ∃ k ∈ j :: js, a = 16 * b + k.val := by
          rintro ⟨k, hk, e⟩
          rcases List.mem_cons.mp hk with rfl | hk
          · exact h3 e
          · exact h1 ⟨k, hk, e⟩
        rw [if_neg h3, dif_neg h2]

theorem writeBlock_wf {m : Memory} (h : Memory.wf m) {b : Nat} (hb : b < 16) (v : Block) :
    Memory.wf (writeBlock m b v) := (writeOffsets_spec b hb v _ h).1

/-- MemWrite changes the 16 bytes of its block and no other (spec/20_memory.md R51). -/
theorem readByte_writeBlock {m : Memory} (h : Memory.wf m) {b : Nat} (hb : b < 16) (v : Block) (a : Nat) :
    readByte (writeBlock m b v) a =
      if hj : 16 * b ≤ a ∧ a < 16 * b + 16 then v[a - 16 * b] else readByte m a := by
  rw [writeBlock, (writeOffsets_spec b hb v _ h).2 a]
  by_cases hj : 16 * b ≤ a ∧ a < 16 * b + 16
  · rw [dif_pos hj, dif_pos ⟨⟨a - 16 * b, by omega⟩, by simp, by simp; omega⟩]
  · rw [dif_neg hj, dif_neg]
    rintro ⟨j, _, rfl⟩
    exact hj ⟨by omega, by omega⟩

/-- Block read after block write. -/
theorem readBlock_writeBlock {m : Memory} (h : Memory.wf m) {b : Nat} (hb : b < 16) (v : Block) (b' : Nat) :
    readBlock (writeBlock m b v) b' = if b' = b then v else readBlock m b' := by
  ext j hj
  rw [readBlock_getElem, readByte_writeBlock h hb]
  by_cases hbb : b' = b
  · subst hbb
    rw [dif_pos ⟨by omega, by omega⟩, if_pos rfl]
    simp
  · rw [dif_neg (by omega), if_neg hbb, readBlock_getElem]

/-- Equal blocks, equal memories. -/
theorem Memory.ext_blocks {m m' : Memory} (h : Memory.wf m) (h' : Memory.wf m')
    (he : ∀ b < 16, readBlock m b = readBlock m' b) : m = m' := by
  refine Memory.ext_read h h' fun a => ?_
  by_cases ha : a < stateBytes
  · simp only [stateBytes] at ha
    have := congrArg (fun v : Block => v[a % 16]'(Nat.mod_lt _ (by omega))) (he (a / 16) (by omega))
    simp only [readBlock_getElem, Nat.div_add_mod] at this
    exact this
  · rw [readByte_outside h (by omega), readByte_outside h' (by omega)]

/-! ### The zeroing step of INIT -/

theorem zeroPrefix_spec {m : Memory} (h : Memory.wf m) (n : Nat) (hn : n ≤ stateBytes) :
    Memory.wf ((List.range n).foldl (fun m i => writeByte m i 0) m) ∧
    ∀ a, readByte ((List.range n).foldl (fun m i => writeByte m i 0) m) a =
      if a < n then 0 else readByte m a := by
  induction n with
  | zero => exact ⟨h, fun a => by simp⟩
  | succ n ih =>
    obtain ⟨i1, i2⟩ := ih (by omega)
    rw [List.range_succ, List.foldl_append]
    refine ⟨writeByte_wf i1 (by omega) _, fun a => ?_⟩
    rw [List.foldl_cons, List.foldl_nil, readByte_writeByte i1, i2 a]
    by_cases h1 : a = n
    · simp [h1]
    · by_cases h2 : a < n
      · rw [if_neg h1, if_pos h2, if_pos (by omega)]
      · rw [if_neg h1, if_neg h2, if_neg (by omega)]

/-- The zeroed buffer lists nothing. -/
theorem zeroBuffer_eq_nil {m : Memory} (h : Memory.wf m) : zeroBuffer m = [] := by
  obtain ⟨h1, h2⟩ := zeroPrefix_spec h stateBytes (Nat.le_refl _)
  refine Memory.ext_read h1 Memory.wf_nil fun a => ?_
  refine (h2 a).trans ?_
  by_cases ha : a < stateBytes
  · rw [if_pos ha]; rfl
  · rw [if_neg ha, readByte_outside h (by omega)]; rfl

end Sys2Proof.Machine
end

