-- ==== Sys2Proof/Laws/State.lean ====
section
/-! SUPPORT. The fields of the state after each update: one lemma per field per update, so that no later
proof unfolds a record update. -/

namespace Sys2Proof.Machine

/-! ### setMem -/

@[simp] theorem setMem_mem (x : Memory) (s : State) : (setMem x s).mem = x := rfl
@[simp] theorem setMem_next (x : Memory) (s : State) : (setMem x s).next = s.next := rfl
@[simp] theorem setMem_inited (x : Memory) (s : State) : (setMem x s).inited = s.inited := rfl
@[simp] theorem setMem_roms (x : Memory) (s : State) : (setMem x s).roms = s.roms := rfl
@[simp] theorem setMem_latches (x : Memory) (s : State) : (setMem x s).latches = s.latches := rfl
@[simp] theorem setMem_snap (x : Memory) (s : State) : (setMem x s).snap = s.snap := rfl
@[simp] theorem setMem_round (x : Memory) (s : State) : (setMem x s).round = s.round := rfl
@[simp] theorem setMem_br (x : Memory) (s : State) : (setMem x s).br = s.br := rfl
@[simp] theorem setMem_kp (x : Memory) (s : State) : (setMem x s).kp = s.kp := rfl
@[simp] theorem setMem_idx (x : Memory) (s : State) : (setMem x s).idx = s.idx := rfl
@[simp] theorem setMem_cnt (x : Memory) (s : State) : (setMem x s).cnt = s.cnt := rfl
@[simp] theorem setMem_seed (x : Memory) (s : State) : (setMem x s).seed = s.seed := rfl
@[simp] theorem setMem_response (x : Memory) (s : State) : (setMem x s).response = s.response := rfl
@[simp] theorem setMem_inputs (x : Memory) (s : State) : (setMem x s).inputs = s.inputs := rfl
@[simp] theorem setMem_ports (x : Memory) (s : State) : (setMem x s).ports = s.ports := rfl
@[simp] theorem setMem_issued (x : Memory) (s : State) : (setMem x s).issued = s.issued := rfl
@[simp] theorem setMem_epoch (x : Memory) (s : State) : (setMem x s).epoch = s.epoch := rfl

/-! ### setNext -/

@[simp] theorem setNext_mem (x : BitVec 9) (s : State) : (setNext x s).mem = s.mem := rfl
@[simp] theorem setNext_next (x : BitVec 9) (s : State) : (setNext x s).next = x := rfl
@[simp] theorem setNext_inited (x : BitVec 9) (s : State) : (setNext x s).inited = s.inited := rfl
@[simp] theorem setNext_roms (x : BitVec 9) (s : State) : (setNext x s).roms = s.roms := rfl
@[simp] theorem setNext_latches (x : BitVec 9) (s : State) : (setNext x s).latches = s.latches := rfl
@[simp] theorem setNext_snap (x : BitVec 9) (s : State) : (setNext x s).snap = s.snap := rfl
@[simp] theorem setNext_round (x : BitVec 9) (s : State) : (setNext x s).round = s.round := rfl
@[simp] theorem setNext_br (x : BitVec 9) (s : State) : (setNext x s).br = s.br := rfl
@[simp] theorem setNext_kp (x : BitVec 9) (s : State) : (setNext x s).kp = s.kp := rfl
@[simp] theorem setNext_idx (x : BitVec 9) (s : State) : (setNext x s).idx = s.idx := rfl
@[simp] theorem setNext_cnt (x : BitVec 9) (s : State) : (setNext x s).cnt = s.cnt := rfl
@[simp] theorem setNext_seed (x : BitVec 9) (s : State) : (setNext x s).seed = s.seed := rfl
@[simp] theorem setNext_response (x : BitVec 9) (s : State) : (setNext x s).response = s.response := rfl
@[simp] theorem setNext_inputs (x : BitVec 9) (s : State) : (setNext x s).inputs = s.inputs := rfl
@[simp] theorem setNext_ports (x : BitVec 9) (s : State) : (setNext x s).ports = s.ports := rfl
@[simp] theorem setNext_issued (x : BitVec 9) (s : State) : (setNext x s).issued = s.issued := rfl
@[simp] theorem setNext_epoch (x : BitVec 9) (s : State) : (setNext x s).epoch = s.epoch := rfl

/-! ### setInited -/

@[simp] theorem setInited_mem (x : Bool) (s : State) : (setInited x s).mem = s.mem := rfl
@[simp] theorem setInited_next (x : Bool) (s : State) : (setInited x s).next = s.next := rfl
@[simp] theorem setInited_inited (x : Bool) (s : State) : (setInited x s).inited = x := rfl
@[simp] theorem setInited_roms (x : Bool) (s : State) : (setInited x s).roms = s.roms := rfl
@[simp] theorem setInited_latches (x : Bool) (s : State) : (setInited x s).latches = s.latches := rfl
@[simp] theorem setInited_snap (x : Bool) (s : State) : (setInited x s).snap = s.snap := rfl
@[simp] theorem setInited_round (x : Bool) (s : State) : (setInited x s).round = s.round := rfl
@[simp] theorem setInited_br (x : Bool) (s : State) : (setInited x s).br = s.br := rfl
@[simp] theorem setInited_kp (x : Bool) (s : State) : (setInited x s).kp = s.kp := rfl
@[simp] theorem setInited_idx (x : Bool) (s : State) : (setInited x s).idx = s.idx := rfl
@[simp] theorem setInited_cnt (x : Bool) (s : State) : (setInited x s).cnt = s.cnt := rfl
@[simp] theorem setInited_seed (x : Bool) (s : State) : (setInited x s).seed = s.seed := rfl
@[simp] theorem setInited_response (x : Bool) (s : State) : (setInited x s).response = s.response := rfl
@[simp] theorem setInited_inputs (x : Bool) (s : State) : (setInited x s).inputs = s.inputs := rfl
@[simp] theorem setInited_ports (x : Bool) (s : State) : (setInited x s).ports = s.ports := rfl
@[simp] theorem setInited_issued (x : Bool) (s : State) : (setInited x s).issued = s.issued := rfl
@[simp] theorem setInited_epoch (x : Bool) (s : State) : (setInited x s).epoch = s.epoch := rfl

/-! ### setRound -/

@[simp] theorem setRound_mem (x : BitVec 5) (s : State) : (setRound x s).mem = s.mem := rfl
@[simp] theorem setRound_next (x : BitVec 5) (s : State) : (setRound x s).next = s.next := rfl
@[simp] theorem setRound_inited (x : BitVec 5) (s : State) : (setRound x s).inited = s.inited := rfl
@[simp] theorem setRound_roms (x : BitVec 5) (s : State) : (setRound x s).roms = s.roms := rfl
@[simp] theorem setRound_latches (x : BitVec 5) (s : State) : (setRound x s).latches = s.latches := rfl
@[simp] theorem setRound_snap (x : BitVec 5) (s : State) : (setRound x s).snap = s.snap := rfl
@[simp] theorem setRound_round (x : BitVec 5) (s : State) : (setRound x s).round = x := rfl
@[simp] theorem setRound_br (x : BitVec 5) (s : State) : (setRound x s).br = s.br := rfl
@[simp] theorem setRound_kp (x : BitVec 5) (s : State) : (setRound x s).kp = s.kp := rfl
@[simp] theorem setRound_idx (x : BitVec 5) (s : State) : (setRound x s).idx = s.idx := rfl
@[simp] theorem setRound_cnt (x : BitVec 5) (s : State) : (setRound x s).cnt = s.cnt := rfl
@[simp] theorem setRound_seed (x : BitVec 5) (s : State) : (setRound x s).seed = s.seed := rfl
@[simp] theorem setRound_response (x : BitVec 5) (s : State) : (setRound x s).response = s.response := rfl
@[simp] theorem setRound_inputs (x : BitVec 5) (s : State) : (setRound x s).inputs = s.inputs := rfl
@[simp] theorem setRound_ports (x : BitVec 5) (s : State) : (setRound x s).ports = s.ports := rfl
@[simp] theorem setRound_issued (x : BitVec 5) (s : State) : (setRound x s).issued = s.issued := rfl
@[simp] theorem setRound_epoch (x : BitVec 5) (s : State) : (setRound x s).epoch = s.epoch := rfl

/-! ### setBr -/

@[simp] theorem setBr_mem (x : BitVec 4) (s : State) : (setBr x s).mem = s.mem := rfl
@[simp] theorem setBr_next (x : BitVec 4) (s : State) : (setBr x s).next = s.next := rfl
@[simp] theorem setBr_inited (x : BitVec 4) (s : State) : (setBr x s).inited = s.inited := rfl
@[simp] theorem setBr_roms (x : BitVec 4) (s : State) : (setBr x s).roms = s.roms := rfl
@[simp] theorem setBr_latches (x : BitVec 4) (s : State) : (setBr x s).latches = s.latches := rfl
@[simp] theorem setBr_snap (x : BitVec 4) (s : State) : (setBr x s).snap = s.snap := rfl
@[simp] theorem setBr_round (x : BitVec 4) (s : State) : (setBr x s).round = s.round := rfl
@[simp] theorem setBr_br (x : BitVec 4) (s : State) : (setBr x s).br = x := rfl
@[simp] theorem setBr_kp (x : BitVec 4) (s : State) : (setBr x s).kp = s.kp := rfl
@[simp] theorem setBr_idx (x : BitVec 4) (s : State) : (setBr x s).idx = s.idx := rfl
@[simp] theorem setBr_cnt (x : BitVec 4) (s : State) : (setBr x s).cnt = s.cnt := rfl
@[simp] theorem setBr_seed (x : BitVec 4) (s : State) : (setBr x s).seed = s.seed := rfl
@[simp] theorem setBr_response (x : BitVec 4) (s : State) : (setBr x s).response = s.response := rfl
@[simp] theorem setBr_inputs (x : BitVec 4) (s : State) : (setBr x s).inputs = s.inputs := rfl
@[simp] theorem setBr_ports (x : BitVec 4) (s : State) : (setBr x s).ports = s.ports := rfl
@[simp] theorem setBr_issued (x : BitVec 4) (s : State) : (setBr x s).issued = s.issued := rfl
@[simp] theorem setBr_epoch (x : BitVec 4) (s : State) : (setBr x s).epoch = s.epoch := rfl

/-! ### setKp -/

@[simp] theorem setKp_mem (x : BitVec 8) (s : State) : (setKp x s).mem = s.mem := rfl
@[simp] theorem setKp_next (x : BitVec 8) (s : State) : (setKp x s).next = s.next := rfl
@[simp] theorem setKp_inited (x : BitVec 8) (s : State) : (setKp x s).inited = s.inited := rfl
@[simp] theorem setKp_roms (x : BitVec 8) (s : State) : (setKp x s).roms = s.roms := rfl
@[simp] theorem setKp_latches (x : BitVec 8) (s : State) : (setKp x s).latches = s.latches := rfl
@[simp] theorem setKp_snap (x : BitVec 8) (s : State) : (setKp x s).snap = s.snap := rfl
@[simp] theorem setKp_round (x : BitVec 8) (s : State) : (setKp x s).round = s.round := rfl
@[simp] theorem setKp_br (x : BitVec 8) (s : State) : (setKp x s).br = s.br := rfl
@[simp] theorem setKp_kp (x : BitVec 8) (s : State) : (setKp x s).kp = x := rfl
@[simp] theorem setKp_idx (x : BitVec 8) (s : State) : (setKp x s).idx = s.idx := rfl
@[simp] theorem setKp_cnt (x : BitVec 8) (s : State) : (setKp x s).cnt = s.cnt := rfl
@[simp] theorem setKp_seed (x : BitVec 8) (s : State) : (setKp x s).seed = s.seed := rfl
@[simp] theorem setKp_response (x : BitVec 8) (s : State) : (setKp x s).response = s.response := rfl
@[simp] theorem setKp_inputs (x : BitVec 8) (s : State) : (setKp x s).inputs = s.inputs := rfl
@[simp] theorem setKp_ports (x : BitVec 8) (s : State) : (setKp x s).ports = s.ports := rfl
@[simp] theorem setKp_issued (x : BitVec 8) (s : State) : (setKp x s).issued = s.issued := rfl
@[simp] theorem setKp_epoch (x : BitVec 8) (s : State) : (setKp x s).epoch = s.epoch := rfl

/-! ### setIdx -/

@[simp] theorem setIdx_mem (x : BitVec 4) (s : State) : (setIdx x s).mem = s.mem := rfl
@[simp] theorem setIdx_next (x : BitVec 4) (s : State) : (setIdx x s).next = s.next := rfl
@[simp] theorem setIdx_inited (x : BitVec 4) (s : State) : (setIdx x s).inited = s.inited := rfl
@[simp] theorem setIdx_roms (x : BitVec 4) (s : State) : (setIdx x s).roms = s.roms := rfl
@[simp] theorem setIdx_latches (x : BitVec 4) (s : State) : (setIdx x s).latches = s.latches := rfl
@[simp] theorem setIdx_snap (x : BitVec 4) (s : State) : (setIdx x s).snap = s.snap := rfl
@[simp] theorem setIdx_round (x : BitVec 4) (s : State) : (setIdx x s).round = s.round := rfl
@[simp] theorem setIdx_br (x : BitVec 4) (s : State) : (setIdx x s).br = s.br := rfl
@[simp] theorem setIdx_kp (x : BitVec 4) (s : State) : (setIdx x s).kp = s.kp := rfl
@[simp] theorem setIdx_idx (x : BitVec 4) (s : State) : (setIdx x s).idx = x := rfl
@[simp] theorem setIdx_cnt (x : BitVec 4) (s : State) : (setIdx x s).cnt = s.cnt := rfl
@[simp] theorem setIdx_seed (x : BitVec 4) (s : State) : (setIdx x s).seed = s.seed := rfl
@[simp] theorem setIdx_response (x : BitVec 4) (s : State) : (setIdx x s).response = s.response := rfl
@[simp] theorem setIdx_inputs (x : BitVec 4) (s : State) : (setIdx x s).inputs = s.inputs := rfl
@[simp] theorem setIdx_ports (x : BitVec 4) (s : State) : (setIdx x s).ports = s.ports := rfl
@[simp] theorem setIdx_issued (x : BitVec 4) (s : State) : (setIdx x s).issued = s.issued := rfl
@[simp] theorem setIdx_epoch (x : BitVec 4) (s : State) : (setIdx x s).epoch = s.epoch := rfl

/-! ### setCnt -/

@[simp] theorem setCnt_mem (x : BitVec 28) (s : State) : (setCnt x s).mem = s.mem := rfl
@[simp] theorem setCnt_next (x : BitVec 28) (s : State) : (setCnt x s).next = s.next := rfl
@[simp] theorem setCnt_inited (x : BitVec 28) (s : State) : (setCnt x s).inited = s.inited := rfl
@[simp] theorem setCnt_roms (x : BitVec 28) (s : State) : (setCnt x s).roms = s.roms := rfl
@[simp] theorem setCnt_latches (x : BitVec 28) (s : State) : (setCnt x s).latches = s.latches := rfl
@[simp] theorem setCnt_snap (x : BitVec 28) (s : State) : (setCnt x s).snap = s.snap := rfl
@[simp] theorem setCnt_round (x : BitVec 28) (s : State) : (setCnt x s).round = s.round := rfl
@[simp] theorem setCnt_br (x : BitVec 28) (s : State) : (setCnt x s).br = s.br := rfl
@[simp] theorem setCnt_kp (x : BitVec 28) (s : State) : (setCnt x s).kp = s.kp := rfl
@[simp] theorem setCnt_idx (x : BitVec 28) (s : State) : (setCnt x s).idx = s.idx := rfl
@[simp] theorem setCnt_cnt (x : BitVec 28) (s : State) : (setCnt x s).cnt = x := rfl
@[simp] theorem setCnt_seed (x : BitVec 28) (s : State) : (setCnt x s).seed = s.seed := rfl
@[simp] theorem setCnt_response (x : BitVec 28) (s : State) : (setCnt x s).response = s.response := rfl
@[simp] theorem setCnt_inputs (x : BitVec 28) (s : State) : (setCnt x s).inputs = s.inputs := rfl
@[simp] theorem setCnt_ports (x : BitVec 28) (s : State) : (setCnt x s).ports = s.ports := rfl
@[simp] theorem setCnt_issued (x : BitVec 28) (s : State) : (setCnt x s).issued = s.issued := rfl
@[simp] theorem setCnt_epoch (x : BitVec 28) (s : State) : (setCnt x s).epoch = s.epoch := rfl

/-! ### setSeed -/

@[simp] theorem setSeed_mem (x : Seed) (s : State) : (setSeed x s).mem = s.mem := rfl
@[simp] theorem setSeed_next (x : Seed) (s : State) : (setSeed x s).next = s.next := rfl
@[simp] theorem setSeed_inited (x : Seed) (s : State) : (setSeed x s).inited = s.inited := rfl
@[simp] theorem setSeed_roms (x : Seed) (s : State) : (setSeed x s).roms = s.roms := rfl
@[simp] theorem setSeed_latches (x : Seed) (s : State) : (setSeed x s).latches = s.latches := rfl
@[simp] theorem setSeed_snap (x : Seed) (s : State) : (setSeed x s).snap = s.snap := rfl
@[simp] theorem setSeed_round (x : Seed) (s : State) : (setSeed x s).round = s.round := rfl
@[simp] theorem setSeed_br (x : Seed) (s : State) : (setSeed x s).br = s.br := rfl
@[simp] theorem setSeed_kp (x : Seed) (s : State) : (setSeed x s).kp = s.kp := rfl
@[simp] theorem setSeed_idx (x : Seed) (s : State) : (setSeed x s).idx = s.idx := rfl
@[simp] theorem setSeed_cnt (x : Seed) (s : State) : (setSeed x s).cnt = s.cnt := rfl
@[simp] theorem setSeed_seed (x : Seed) (s : State) : (setSeed x s).seed = x := rfl
@[simp] theorem setSeed_response (x : Seed) (s : State) : (setSeed x s).response = s.response := rfl
@[simp] theorem setSeed_inputs (x : Seed) (s : State) : (setSeed x s).inputs = s.inputs := rfl
@[simp] theorem setSeed_ports (x : Seed) (s : State) : (setSeed x s).ports = s.ports := rfl
@[simp] theorem setSeed_issued (x : Seed) (s : State) : (setSeed x s).issued = s.issued := rfl
@[simp] theorem setSeed_epoch (x : Seed) (s : State) : (setSeed x s).epoch = s.epoch := rfl

/-! ### setInputs -/

@[simp] theorem setInputs_mem (x : List Event) (s : State) : (setInputs x s).mem = s.mem := rfl
@[simp] theorem setInputs_next (x : List Event) (s : State) : (setInputs x s).next = s.next := rfl
@[simp] theorem setInputs_inited (x : List Event) (s : State) : (setInputs x s).inited = s.inited := rfl
@[simp] theorem setInputs_roms (x : List Event) (s : State) : (setInputs x s).roms = s.roms := rfl
@[simp] theorem setInputs_latches (x : List Event) (s : State) : (setInputs x s).latches = s.latches := rfl
@[simp] theorem setInputs_snap (x : List Event) (s : State) : (setInputs x s).snap = s.snap := rfl
@[simp] theorem setInputs_round (x : List Event) (s : State) : (setInputs x s).round = s.round := rfl
@[simp] theorem setInputs_br (x : List Event) (s : State) : (setInputs x s).br = s.br := rfl
@[simp] theorem setInputs_kp (x : List Event) (s : State) : (setInputs x s).kp = s.kp := rfl
@[simp] theorem setInputs_idx (x : List Event) (s : State) : (setInputs x s).idx = s.idx := rfl
@[simp] theorem setInputs_cnt (x : List Event) (s : State) : (setInputs x s).cnt = s.cnt := rfl
@[simp] theorem setInputs_seed (x : List Event) (s : State) : (setInputs x s).seed = s.seed := rfl
@[simp] theorem setInputs_response (x : List Event) (s : State) : (setInputs x s).response = s.response := rfl
@[simp] theorem setInputs_inputs (x : List Event) (s : State) : (setInputs x s).inputs = x := rfl
@[simp] theorem setInputs_ports (x : List Event) (s : State) : (setInputs x s).ports = s.ports := rfl
@[simp] theorem setInputs_issued (x : List Event) (s : State) : (setInputs x s).issued = s.issued := rfl
@[simp] theorem setInputs_epoch (x : List Event) (s : State) : (setInputs x s).epoch = s.epoch := rfl

/-! ### setPorts -/

@[simp] theorem setPorts_mem (x : Ports) (s : State) : (setPorts x s).mem = s.mem := rfl
@[simp] theorem setPorts_next (x : Ports) (s : State) : (setPorts x s).next = s.next := rfl
@[simp] theorem setPorts_inited (x : Ports) (s : State) : (setPorts x s).inited = s.inited := rfl
@[simp] theorem setPorts_roms (x : Ports) (s : State) : (setPorts x s).roms = s.roms := rfl
@[simp] theorem setPorts_latches (x : Ports) (s : State) : (setPorts x s).latches = s.latches := rfl
@[simp] theorem setPorts_snap (x : Ports) (s : State) : (setPorts x s).snap = s.snap := rfl
@[simp] theorem setPorts_round (x : Ports) (s : State) : (setPorts x s).round = s.round := rfl
@[simp] theorem setPorts_br (x : Ports) (s : State) : (setPorts x s).br = s.br := rfl
@[simp] theorem setPorts_kp (x : Ports) (s : State) : (setPorts x s).kp = s.kp := rfl
@[simp] theorem setPorts_idx (x : Ports) (s : State) : (setPorts x s).idx = s.idx := rfl
@[simp] theorem setPorts_cnt (x : Ports) (s : State) : (setPorts x s).cnt = s.cnt := rfl
@[simp] theorem setPorts_seed (x : Ports) (s : State) : (setPorts x s).seed = s.seed := rfl
@[simp] theorem setPorts_response (x : Ports) (s : State) : (setPorts x s).response = s.response := rfl
@[simp] theorem setPorts_inputs (x : Ports) (s : State) : (setPorts x s).inputs = s.inputs := rfl
@[simp] theorem setPorts_ports (x : Ports) (s : State) : (setPorts x s).ports = x := rfl
@[simp] theorem setPorts_issued (x : Ports) (s : State) : (setPorts x s).issued = s.issued := rfl
@[simp] theorem setPorts_epoch (x : Ports) (s : State) : (setPorts x s).epoch = s.epoch := rfl

/-! ### writeLatch -/

@[simp] theorem writeLatch_mem (l : Latch) (v : Block) (s : State) :
    (writeLatch l v s).mem = s.mem := by cases l <;> rfl
@[simp] theorem writeLatch_next (l : Latch) (v : Block) (s : State) :
    (writeLatch l v s).next = s.next := by cases l <;> rfl
@[simp] theorem writeLatch_inited (l : Latch) (v : Block) (s : State) :
    (writeLatch l v s).inited = s.inited := by cases l <;> rfl
@[simp] theorem writeLatch_roms (l : Latch) (v : Block) (s : State) :
    (writeLatch l v s).roms = s.roms := by cases l <;> rfl
@[simp] theorem writeLatch_snap (l : Latch) (v : Block) (s : State) :
    (writeLatch l v s).snap = s.snap := by cases l <;> rfl
@[simp] theorem writeLatch_round (l : Latch) (v : Block) (s : State) :
    (writeLatch l v s).round = s.round := by cases l <;> rfl
@[simp] theorem writeLatch_br (l : Latch) (v : Block) (s : State) : (writeLatch l v s).br = s.br := by cases l <;> rfl
@[simp] theorem writeLatch_kp (l : Latch) (v : Block) (s : State) : (writeLatch l v s).kp = s.kp := by cases l <;> rfl
@[simp] theorem writeLatch_idx (l : Latch) (v : Block) (s : State) :
    (writeLatch l v s).idx = s.idx := by cases l <;> rfl
@[simp] theorem writeLatch_cnt (l : Latch) (v : Block) (s : State) :
    (writeLatch l v s).cnt = s.cnt := by cases l <;> rfl
@[simp] theorem writeLatch_seed (l : Latch) (v : Block) (s : State) :
    (writeLatch l v s).seed = s.seed := by cases l <;> rfl
@[simp] theorem writeLatch_response (l : Latch) (v : Block) (s : State) :
    (writeLatch l v s).response = s.response := by cases l <;> rfl
@[simp] theorem writeLatch_inputs (l : Latch) (v : Block) (s : State) :
    (writeLatch l v s).inputs = s.inputs := by cases l <;> rfl
@[simp] theorem writeLatch_ports (l : Latch) (v : Block) (s : State) :
    (writeLatch l v s).ports = s.ports := by cases l <;> rfl
@[simp] theorem writeLatch_issued (l : Latch) (v : Block) (s : State) :
    (writeLatch l v s).issued = s.issued := by cases l <;> rfl
@[simp] theorem writeLatch_epoch (l : Latch) (v : Block) (s : State) :
    (writeLatch l v s).epoch = s.epoch := by cases l <;> rfl

/-! ### writeSnap -/

@[simp] theorem writeSnap_mem (i : BitVec 4) (v : Block) (s : State) : (writeSnap i v s).mem = s.mem := rfl
@[simp] theorem writeSnap_next (i : BitVec 4) (v : Block) (s : State) : (writeSnap i v s).next = s.next := rfl
@[simp] theorem writeSnap_inited (i : BitVec 4) (v : Block) (s : State) : (writeSnap i v s).inited = s.inited := rfl
@[simp] theorem writeSnap_roms (i : BitVec 4) (v : Block) (s : State) : (writeSnap i v s).roms = s.roms := rfl
@[simp] theorem writeSnap_latches (i : BitVec 4) (v : Block) (s : State) :
    (writeSnap i v s).latches = s.latches := rfl
@[simp] theorem writeSnap_snap (i : BitVec 4) (v : Block) (s : State) :
    (writeSnap i v s).snap = s.snap.set i.toNat v i.isLt := rfl
@[simp] theorem writeSnap_round (i : BitVec 4) (v : Block) (s : State) : (writeSnap i v s).round = s.round := rfl
@[simp] theorem writeSnap_br (i : BitVec 4) (v : Block) (s : State) : (writeSnap i v s).br = s.br := rfl
@[simp] theorem writeSnap_kp (i : BitVec 4) (v : Block) (s : State) : (writeSnap i v s).kp = s.kp := rfl
@[simp] theorem writeSnap_idx (i : BitVec 4) (v : Block) (s : State) : (writeSnap i v s).idx = s.idx := rfl
@[simp] theorem writeSnap_cnt (i : BitVec 4) (v : Block) (s : State) : (writeSnap i v s).cnt = s.cnt := rfl
@[simp] theorem writeSnap_seed (i : BitVec 4) (v : Block) (s : State) : (writeSnap i v s).seed = s.seed := rfl
@[simp] theorem writeSnap_response (i : BitVec 4) (v : Block) (s : State) :
    (writeSnap i v s).response = s.response := rfl
@[simp] theorem writeSnap_inputs (i : BitVec 4) (v : Block) (s : State) : (writeSnap i v s).inputs = s.inputs := rfl
@[simp] theorem writeSnap_ports (i : BitVec 4) (v : Block) (s : State) : (writeSnap i v s).ports = s.ports := rfl
@[simp] theorem writeSnap_issued (i : BitVec 4) (v : Block) (s : State) : (writeSnap i v s).issued = s.issued := rfl
@[simp] theorem writeSnap_epoch (i : BitVec 4) (v : Block) (s : State) : (writeSnap i v s).epoch = s.epoch := rfl

/-! ### writeLoadPort -/

@[simp] theorem writeLoadPort_mem (v : Block) (s : State) :
    (writeLoadPort v s).mem = s.mem := by unfold writeLoadPort; split <;> simp
@[simp] theorem writeLoadPort_next (v : Block) (s : State) :
    (writeLoadPort v s).next = s.next := by unfold writeLoadPort; split <;> simp
@[simp] theorem writeLoadPort_inited (v : Block) (s : State) :
    (writeLoadPort v s).inited = s.inited := by unfold writeLoadPort; split <;> simp
@[simp] theorem writeLoadPort_roms (v : Block) (s : State) :
    (writeLoadPort v s).roms = s.roms := by unfold writeLoadPort; split <;> simp
@[simp] theorem writeLoadPort_round (v : Block) (s : State) :
    (writeLoadPort v s).round = s.round := by unfold writeLoadPort; split <;> simp
@[simp] theorem writeLoadPort_br (v : Block) (s : State) :
    (writeLoadPort v s).br = s.br := by unfold writeLoadPort; split <;> simp
@[simp] theorem writeLoadPort_kp (v : Block) (s : State) :
    (writeLoadPort v s).kp = s.kp := by unfold writeLoadPort; split <;> simp
@[simp] theorem writeLoadPort_idx (v : Block) (s : State) :
    (writeLoadPort v s).idx = s.idx := by unfold writeLoadPort; split <;> simp
@[simp] theorem writeLoadPort_cnt (v : Block) (s : State) :
    (writeLoadPort v s).cnt = s.cnt := by unfold writeLoadPort; split <;> simp
@[simp] theorem writeLoadPort_seed (v : Block) (s : State) :
    (writeLoadPort v s).seed = s.seed := by unfold writeLoadPort; split <;> simp
@[simp] theorem writeLoadPort_response (v : Block) (s : State) :
    (writeLoadPort v s).response = s.response := by unfold writeLoadPort; split <;> simp
@[simp] theorem writeLoadPort_inputs (v : Block) (s : State) :
    (writeLoadPort v s).inputs = s.inputs := by unfold writeLoadPort; split <;> simp
@[simp] theorem writeLoadPort_ports (v : Block) (s : State) :
    (writeLoadPort v s).ports = s.ports := by unfold writeLoadPort; split <;> simp
@[simp] theorem writeLoadPort_issued (v : Block) (s : State) :
    (writeLoadPort v s).issued = s.issued := by unfold writeLoadPort; split <;> simp
@[simp] theorem writeLoadPort_epoch (v : Block) (s : State) :
    (writeLoadPort v s).epoch = s.epoch := by unfold writeLoadPort; split <;> simp

/-! ### connectLoad -/

@[simp] theorem connectLoad_mem (p : LoadPort) (s : State) : (connectLoad p s).mem = s.mem := rfl
@[simp] theorem connectLoad_next (p : LoadPort) (s : State) : (connectLoad p s).next = s.next := rfl
@[simp] theorem connectLoad_inited (p : LoadPort) (s : State) : (connectLoad p s).inited = s.inited := rfl
@[simp] theorem connectLoad_roms (p : LoadPort) (s : State) : (connectLoad p s).roms = s.roms := rfl
@[simp] theorem connectLoad_latches (p : LoadPort) (s : State) : (connectLoad p s).latches = s.latches := rfl
@[simp] theorem connectLoad_snap (p : LoadPort) (s : State) : (connectLoad p s).snap = s.snap := rfl
@[simp] theorem connectLoad_round (p : LoadPort) (s : State) : (connectLoad p s).round = s.round := rfl
@[simp] theorem connectLoad_br (p : LoadPort) (s : State) : (connectLoad p s).br = s.br := rfl
@[simp] theorem connectLoad_kp (p : LoadPort) (s : State) : (connectLoad p s).kp = s.kp := rfl
@[simp] theorem connectLoad_idx (p : LoadPort) (s : State) : (connectLoad p s).idx = s.idx := rfl
@[simp] theorem connectLoad_cnt (p : LoadPort) (s : State) : (connectLoad p s).cnt = s.cnt := rfl
@[simp] theorem connectLoad_seed (p : LoadPort) (s : State) : (connectLoad p s).seed = s.seed := rfl
@[simp] theorem connectLoad_response (p : LoadPort) (s : State) : (connectLoad p s).response = s.response := rfl
@[simp] theorem connectLoad_inputs (p : LoadPort) (s : State) : (connectLoad p s).inputs = s.inputs := rfl
@[simp] theorem connectLoad_ports (p : LoadPort) (s : State) :
    (connectLoad p s).ports = { s.ports with load := p } := rfl
@[simp] theorem connectLoad_issued (p : LoadPort) (s : State) : (connectLoad p s).issued = s.issued := rfl
@[simp] theorem connectLoad_epoch (p : LoadPort) (s : State) : (connectLoad p s).epoch = s.epoch := rfl

/-! ### connectStore -/

@[simp] theorem connectStore_mem (p : StorePort) (s : State) : (connectStore p s).mem = s.mem := rfl
@[simp] theorem connectStore_next (p : StorePort) (s : State) : (connectStore p s).next = s.next := rfl
@[simp] theorem connectStore_inited (p : StorePort) (s : State) : (connectStore p s).inited = s.inited := rfl
@[simp] theorem connectStore_roms (p : StorePort) (s : State) : (connectStore p s).roms = s.roms := rfl
@[simp] theorem connectStore_latches (p : StorePort) (s : State) : (connectStore p s).latches = s.latches := rfl
@[simp] theorem connectStore_snap (p : StorePort) (s : State) : (connectStore p s).snap = s.snap := rfl
@[simp] theorem connectStore_round (p : StorePort) (s : State) : (connectStore p s).round = s.round := rfl
@[simp] theorem connectStore_br (p : StorePort) (s : State) : (connectStore p s).br = s.br := rfl
@[simp] theorem connectStore_kp (p : StorePort) (s : State) : (connectStore p s).kp = s.kp := rfl
@[simp] theorem connectStore_idx (p : StorePort) (s : State) : (connectStore p s).idx = s.idx := rfl
@[simp] theorem connectStore_cnt (p : StorePort) (s : State) : (connectStore p s).cnt = s.cnt := rfl
@[simp] theorem connectStore_seed (p : StorePort) (s : State) : (connectStore p s).seed = s.seed := rfl
@[simp] theorem connectStore_response (p : StorePort) (s : State) : (connectStore p s).response = s.response := rfl
@[simp] theorem connectStore_inputs (p : StorePort) (s : State) : (connectStore p s).inputs = s.inputs := rfl
@[simp] theorem connectStore_ports (p : StorePort) (s : State) :
    (connectStore p s).ports = { s.ports with store := p } := rfl
@[simp] theorem connectStore_issued (p : StorePort) (s : State) : (connectStore p s).issued = s.issued := rfl
@[simp] theorem connectStore_epoch (p : StorePort) (s : State) : (connectStore p s).epoch = s.epoch := rfl

/-! ### connectAes -/

@[simp] theorem connectAes_mem (r a k : Latch) (s : State) : (connectAes r a k s).mem = s.mem := rfl
@[simp] theorem connectAes_next (r a k : Latch) (s : State) : (connectAes r a k s).next = s.next := rfl
@[simp] theorem connectAes_inited (r a k : Latch) (s : State) : (connectAes r a k s).inited = s.inited := rfl
@[simp] theorem connectAes_roms (r a k : Latch) (s : State) : (connectAes r a k s).roms = s.roms := rfl
@[simp] theorem connectAes_latches (r a k : Latch) (s : State) : (connectAes r a k s).latches = s.latches := rfl
@[simp] theorem connectAes_snap (r a k : Latch) (s : State) : (connectAes r a k s).snap = s.snap := rfl
@[simp] theorem connectAes_round (r a k : Latch) (s : State) : (connectAes r a k s).round = s.round := rfl
@[simp] theorem connectAes_br (r a k : Latch) (s : State) : (connectAes r a k s).br = s.br := rfl
@[simp] theorem connectAes_kp (r a k : Latch) (s : State) : (connectAes r a k s).kp = s.kp := rfl
@[simp] theorem connectAes_idx (r a k : Latch) (s : State) : (connectAes r a k s).idx = s.idx := rfl
@[simp] theorem connectAes_cnt (r a k : Latch) (s : State) : (connectAes r a k s).cnt = s.cnt := rfl
@[simp] theorem connectAes_seed (r a k : Latch) (s : State) : (connectAes r a k s).seed = s.seed := rfl
@[simp] theorem connectAes_response (r a k : Latch) (s : State) : (connectAes r a k s).response = s.response := rfl
@[simp] theorem connectAes_inputs (r a k : Latch) (s : State) : (connectAes r a k s).inputs = s.inputs := rfl
@[simp] theorem connectAes_ports (r a k : Latch) (s : State) :
    (connectAes r a k s).ports = { s.ports with aesResult := r, aesState := a, aesKey := k } := rfl
@[simp] theorem connectAes_issued (r a k : Latch) (s : State) : (connectAes r a k s).issued = s.issued := rfl
@[simp] theorem connectAes_epoch (r a k : Latch) (s : State) : (connectAes r a k s).epoch = s.epoch := rfl

/-! ### recordWord -/

@[simp] theorem recordWord_mem (w : BitVec 16) (s : State) : (recordWord w s).mem = s.mem := rfl
@[simp] theorem recordWord_next (w : BitVec 16) (s : State) : (recordWord w s).next = s.next := rfl
@[simp] theorem recordWord_inited (w : BitVec 16) (s : State) : (recordWord w s).inited = s.inited := rfl
@[simp] theorem recordWord_roms (w : BitVec 16) (s : State) : (recordWord w s).roms = s.roms := rfl
@[simp] theorem recordWord_latches (w : BitVec 16) (s : State) : (recordWord w s).latches = s.latches := rfl
@[simp] theorem recordWord_snap (w : BitVec 16) (s : State) : (recordWord w s).snap = s.snap := rfl
@[simp] theorem recordWord_round (w : BitVec 16) (s : State) : (recordWord w s).round = s.round := rfl
@[simp] theorem recordWord_br (w : BitVec 16) (s : State) : (recordWord w s).br = s.br := rfl
@[simp] theorem recordWord_kp (w : BitVec 16) (s : State) : (recordWord w s).kp = s.kp := rfl
@[simp] theorem recordWord_idx (w : BitVec 16) (s : State) : (recordWord w s).idx = s.idx := rfl
@[simp] theorem recordWord_cnt (w : BitVec 16) (s : State) : (recordWord w s).cnt = s.cnt := rfl
@[simp] theorem recordWord_seed (w : BitVec 16) (s : State) : (recordWord w s).seed = s.seed := rfl
@[simp] theorem recordWord_response (w : BitVec 16) (s : State) : (recordWord w s).response = s.response := rfl
@[simp] theorem recordWord_inputs (w : BitVec 16) (s : State) : (recordWord w s).inputs = s.inputs := rfl
@[simp] theorem recordWord_ports (w : BitVec 16) (s : State) : (recordWord w s).ports = s.ports := rfl
@[simp] theorem recordWord_issued (w : BitVec 16) (s : State) : (recordWord w s).issued = w :: s.issued := rfl
@[simp] theorem recordWord_epoch (w : BitVec 16) (s : State) : (recordWord w s).epoch = s.epoch := rfl

/-! ### memWrite -/

@[simp] theorem memWrite_mem (b : Nat) (v : Block) (s : State) :
    (memWrite b v s).mem = writeBlock s.mem b v := by simp only [memWrite, setMem]
@[simp] theorem memWrite_next (b : Nat) (v : Block) (s : State) :
    (memWrite b v s).next = s.next := by simp only [memWrite, setMem]
@[simp] theorem memWrite_inited (b : Nat) (v : Block) (s : State) :
    (memWrite b v s).inited = s.inited := by simp only [memWrite, setMem]
@[simp] theorem memWrite_roms (b : Nat) (v : Block) (s : State) :
    (memWrite b v s).roms = s.roms := by simp only [memWrite, setMem]
@[simp] theorem memWrite_latches (b : Nat) (v : Block) (s : State) :
    (memWrite b v s).latches = s.latches := by simp only [memWrite, setMem]
@[simp] theorem memWrite_snap (b : Nat) (v : Block) (s : State) :
    (memWrite b v s).snap = s.snap := by simp only [memWrite, setMem]
@[simp] theorem memWrite_round (b : Nat) (v : Block) (s : State) :
    (memWrite b v s).round = s.round := by simp only [memWrite, setMem]
@[simp] theorem memWrite_br (b : Nat) (v : Block) (s : State) :
    (memWrite b v s).br = s.br := by simp only [memWrite, setMem]
@[simp] theorem memWrite_kp (b : Nat) (v : Block) (s : State) :
    (memWrite b v s).kp = s.kp := by simp only [memWrite, setMem]
@[simp] theorem memWrite_idx (b : Nat) (v : Block) (s : State) :
    (memWrite b v s).idx = s.idx := by simp only [memWrite, setMem]
@[simp] theorem memWrite_cnt (b : Nat) (v : Block) (s : State) :
    (memWrite b v s).cnt = s.cnt := by simp only [memWrite, setMem]
@[simp] theorem memWrite_seed (b : Nat) (v : Block) (s : State) :
    (memWrite b v s).seed = s.seed := by simp only [memWrite, setMem]
@[simp] theorem memWrite_response (b : Nat) (v : Block) (s : State) :
    (memWrite b v s).response = s.response := by simp only [memWrite, setMem]
@[simp] theorem memWrite_inputs (b : Nat) (v : Block) (s : State) :
    (memWrite b v s).inputs = s.inputs := by simp only [memWrite, setMem]
@[simp] theorem memWrite_ports (b : Nat) (v : Block) (s : State) :
    (memWrite b v s).ports = s.ports := by simp only [memWrite, setMem]
@[simp] theorem memWrite_issued (b : Nat) (v : Block) (s : State) :
    (memWrite b v s).issued = s.issued := by simp only [memWrite, setMem]
@[simp] theorem memWrite_epoch (b : Nat) (v : Block) (s : State) :
    (memWrite b v s).epoch = s.epoch := by simp only [memWrite, setMem]

/-! ### acceptCommand -/

@[simp] theorem acceptCommand_mem (s : State) : (acceptCommand s).mem = s.mem := rfl
@[simp] theorem acceptCommand_next (s : State) : (acceptCommand s).next = s.next := rfl
@[simp] theorem acceptCommand_inited (s : State) : (acceptCommand s).inited = s.inited := rfl
@[simp] theorem acceptCommand_roms (s : State) : (acceptCommand s).roms = s.roms := rfl
@[simp] theorem acceptCommand_latches (s : State) : (acceptCommand s).latches = s.latches := rfl
@[simp] theorem acceptCommand_snap (s : State) : (acceptCommand s).snap = s.snap := rfl
@[simp] theorem acceptCommand_round (s : State) : (acceptCommand s).round = s.round := rfl
@[simp] theorem acceptCommand_br (s : State) : (acceptCommand s).br = s.br := rfl
@[simp] theorem acceptCommand_kp (s : State) : (acceptCommand s).kp = s.kp := rfl
@[simp] theorem acceptCommand_idx (s : State) : (acceptCommand s).idx = s.idx := rfl
@[simp] theorem acceptCommand_cnt (s : State) : (acceptCommand s).cnt = s.cnt := rfl
@[simp] theorem acceptCommand_seed (s : State) : (acceptCommand s).seed = s.seed := rfl
@[simp] theorem acceptCommand_response (s : State) : (acceptCommand s).response = s.response := rfl
@[simp] theorem acceptCommand_inputs (s : State) : (acceptCommand s).inputs = s.inputs := rfl
@[simp] theorem acceptCommand_ports (s : State) : (acceptCommand s).ports = s.ports := rfl
@[simp] theorem acceptCommand_issued (s : State) : (acceptCommand s).issued = [] := rfl
@[simp] theorem acceptCommand_epoch (s : State) : (acceptCommand s).epoch = s.epoch := rfl

/-! ### releaseWorking -/

@[simp] theorem releaseWorking_mem (s : State) : (releaseWorking s).mem = s.mem := rfl
@[simp] theorem releaseWorking_next (s : State) : (releaseWorking s).next = s.next := rfl
@[simp] theorem releaseWorking_inited (s : State) : (releaseWorking s).inited = s.inited := rfl
@[simp] theorem releaseWorking_roms (s : State) : (releaseWorking s).roms = s.roms := rfl
@[simp] theorem releaseWorking_latches (s : State) : (releaseWorking s).latches = freeLatches s.epoch := rfl
@[simp] theorem releaseWorking_response (s : State) : (releaseWorking s).response = s.response := rfl
@[simp] theorem releaseWorking_inputs (s : State) : (releaseWorking s).inputs = s.inputs := rfl
@[simp] theorem releaseWorking_ports (s : State) : (releaseWorking s).ports = s.ports := rfl
@[simp] theorem releaseWorking_issued (s : State) : (releaseWorking s).issued = s.issued := rfl
@[simp] theorem releaseWorking_epoch (s : State) : (releaseWorking s).epoch = s.epoch + 1 := rfl

/-! ### respond -/

@[simp] theorem respond_mem (st : Status) (d : List Byte) (s : State) : (respond st d s).mem = s.mem := rfl
@[simp] theorem respond_next (st : Status) (d : List Byte) (s : State) : (respond st d s).next = s.next := rfl
@[simp] theorem respond_inited (st : Status) (d : List Byte) (s : State) : (respond st d s).inited = s.inited := rfl
@[simp] theorem respond_roms (st : Status) (d : List Byte) (s : State) : (respond st d s).roms = s.roms := rfl
@[simp] theorem respond_latches (st : Status) (d : List Byte) (s : State) :
    (respond st d s).latches = freeLatches s.epoch := rfl
@[simp] theorem respond_response (st : Status) (d : List Byte) (s : State) :
    (respond st d s).response = some { status := st, data := d } := rfl
@[simp] theorem respond_inputs (st : Status) (d : List Byte) (s : State) : (respond st d s).inputs = s.inputs := rfl
@[simp] theorem respond_ports (st : Status) (d : List Byte) (s : State) : (respond st d s).ports = s.ports := rfl
@[simp] theorem respond_issued (st : Status) (d : List Byte) (s : State) : (respond st d s).issued = s.issued := rfl
@[simp] theorem respond_epoch (st : Status) (d : List Byte) (s : State) : (respond st d s).epoch = s.epoch + 1 := rfl

/-! ### raise -/

@[simp] theorem raise_mem (f : CommandFault) (s : State) : (raise f s).mem = s.mem := rfl
@[simp] theorem raise_next (f : CommandFault) (s : State) : (raise f s).next = s.next := rfl
@[simp] theorem raise_inited (f : CommandFault) (s : State) : (raise f s).inited = s.inited := rfl
@[simp] theorem raise_roms (f : CommandFault) (s : State) : (raise f s).roms = s.roms := rfl
@[simp] theorem raise_latches (f : CommandFault) (s : State) : (raise f s).latches = freeLatches s.epoch := rfl
@[simp] theorem raise_response (f : CommandFault) (s : State) :
    (raise f s).response = some { status := faultStatus f, data := [] } := rfl
@[simp] theorem raise_inputs (f : CommandFault) (s : State) : (raise f s).inputs = s.inputs := rfl
@[simp] theorem raise_ports (f : CommandFault) (s : State) : (raise f s).ports = s.ports := rfl
@[simp] theorem raise_issued (f : CommandFault) (s : State) : (raise f s).issued = s.issued := rfl
@[simp] theorem raise_epoch (f : CommandFault) (s : State) : (raise f s).epoch = s.epoch + 1 := rfl

/-! ### raiseIllegal -/

@[simp] theorem raiseIllegal_mem (s : State) : (raiseIllegal s).mem = s.mem := rfl
@[simp] theorem raiseIllegal_next (s : State) : (raiseIllegal s).next = s.next := rfl
@[simp] theorem raiseIllegal_inited (s : State) : (raiseIllegal s).inited = s.inited := rfl
@[simp] theorem raiseIllegal_roms (s : State) : (raiseIllegal s).roms = s.roms := rfl
@[simp] theorem raiseIllegal_latches (s : State) : (raiseIllegal s).latches = freeLatches s.epoch := rfl
@[simp] theorem raiseIllegal_response (s : State) :
    (raiseIllegal s).response = some { status := .errIllegal, data := [] } := rfl
@[simp] theorem raiseIllegal_inputs (s : State) : (raiseIllegal s).inputs = s.inputs := rfl
@[simp] theorem raiseIllegal_ports (s : State) : (raiseIllegal s).ports = s.ports := rfl
@[simp] theorem raiseIllegal_issued (s : State) : (raiseIllegal s).issued = [] := rfl
@[simp] theorem raiseIllegal_epoch (s : State) : (raiseIllegal s).epoch = s.epoch + 1 := rfl

/-! ### presentSeed -/

@[simp] theorem presentSeed_mem (i : Instr) (sd : Seed) (s : State) :
    (presentSeed i sd s).mem = s.mem := by cases i <;> rfl
@[simp] theorem presentSeed_next (i : Instr) (sd : Seed) (s : State) :
    (presentSeed i sd s).next = s.next := by cases i <;> rfl
@[simp] theorem presentSeed_inited (i : Instr) (sd : Seed) (s : State) :
    (presentSeed i sd s).inited = s.inited := by cases i <;> rfl
@[simp] theorem presentSeed_roms (i : Instr) (sd : Seed) (s : State) :
    (presentSeed i sd s).roms = s.roms := by cases i <;> rfl
@[simp] theorem presentSeed_latches (i : Instr) (sd : Seed) (s : State) :
    (presentSeed i sd s).latches = s.latches := by cases i <;> rfl
@[simp] theorem presentSeed_snap (i : Instr) (sd : Seed) (s : State) :
    (presentSeed i sd s).snap = s.snap := by cases i <;> rfl
@[simp] theorem presentSeed_round (i : Instr) (sd : Seed) (s : State) :
    (presentSeed i sd s).round = s.round := by cases i <;> rfl
@[simp] theorem presentSeed_br (i : Instr) (sd : Seed) (s : State) :
    (presentSeed i sd s).br = s.br := by cases i <;> rfl
@[simp] theorem presentSeed_kp (i : Instr) (sd : Seed) (s : State) :
    (presentSeed i sd s).kp = s.kp := by cases i <;> rfl
@[simp] theorem presentSeed_idx (i : Instr) (sd : Seed) (s : State) :
    (presentSeed i sd s).idx = s.idx := by cases i <;> rfl
@[simp] theorem presentSeed_cnt (i : Instr) (sd : Seed) (s : State) :
    (presentSeed i sd s).cnt = s.cnt := by cases i <;> rfl
@[simp] theorem presentSeed_response (i : Instr) (sd : Seed) (s : State) :
    (presentSeed i sd s).response = s.response := by cases i <;> rfl
@[simp] theorem presentSeed_inputs (i : Instr) (sd : Seed) (s : State) :
    (presentSeed i sd s).inputs = s.inputs := by cases i <;> rfl
@[simp] theorem presentSeed_ports (i : Instr) (sd : Seed) (s : State) :
    (presentSeed i sd s).ports = s.ports := by cases i <;> rfl
@[simp] theorem presentSeed_issued (i : Instr) (sd : Seed) (s : State) :
    (presentSeed i sd s).issued = s.issued := by cases i <;> rfl
@[simp] theorem presentSeed_epoch (i : Instr) (sd : Seed) (s : State) :
    (presentSeed i sd s).epoch = s.epoch := by cases i <;> rfl

/-! ### resetEvent -/

@[simp] theorem resetEvent_mem (s : State) :
    (resetEvent s).mem = freeBuffer s := by simp only [resetEvent, releaseWorking]
@[simp] theorem resetEvent_inited (s : State) :
    (resetEvent s).inited = false := by simp only [resetEvent, releaseWorking]
@[simp] theorem resetEvent_roms (s : State) :
    (resetEvent s).roms = s.roms := by simp only [resetEvent, releaseWorking]
@[simp] theorem resetEvent_latches (s : State) :
    (resetEvent s).latches = freeLatches s.epoch := by simp only [resetEvent, releaseWorking]
@[simp] theorem resetEvent_response (s : State) :
    (resetEvent s).response = none := by simp only [resetEvent, releaseWorking]
@[simp] theorem resetEvent_inputs (s : State) :
    (resetEvent s).inputs = s.inputs := by simp only [resetEvent, releaseWorking]
@[simp] theorem resetEvent_ports (s : State) :
    (resetEvent s).ports = s.ports := by simp only [resetEvent, releaseWorking]
@[simp] theorem resetEvent_issued (s : State) :
    (resetEvent s).issued = [] := by simp only [resetEvent, releaseWorking]
@[simp] theorem resetEvent_epoch (s : State) :
    (resetEvent s).epoch = s.epoch + 1 := by simp only [resetEvent, releaseWorking]

/-! ### Reading what was written -/

/-- A latch read after a latch write. -/
theorem readLatch_writeLatch (l l' : Latch) (v : Block) (s : State) :
    readLatch l (writeLatch l' v s) = if l = l' then v else readLatch l s := by
  cases l <;> cases l' <;> rfl

@[simp] theorem readLatch_writeLatch_self (l : Latch) (v : Block) (s : State) :
    readLatch l (writeLatch l v s) = v := by cases l <;> rfl

/-- A latch reads the latch file and nothing else. -/
theorem readLatch_congr {s t : State} (h : s.latches = t.latches) (l : Latch) : readLatch l s = readLatch l t := by
  cases l <;> simp [readLatch, h]

@[simp] theorem readLatch_writeSnap (l : Latch) (i : BitVec 4) (v : Block) (s : State) :
    readLatch l (writeSnap i v s) = readLatch l s := readLatch_congr rfl l

@[simp] theorem readLatch_recordWord (l : Latch) (w : BitVec 16) (s : State) :
    readLatch l (recordWord w s) = readLatch l s := readLatch_congr rfl l

@[simp] theorem readLatch_memWrite (l : Latch) (b : Nat) (v : Block) (s : State) :
    readLatch l (memWrite b v s) = readLatch l s := readLatch_congr rfl l

@[simp] theorem readLatch_connectLoad (l : Latch) (p : LoadPort) (s : State) :
    readLatch l (connectLoad p s) = readLatch l s := readLatch_congr rfl l

@[simp] theorem readLatch_connectStore (l : Latch) (p : StorePort) (s : State) :
    readLatch l (connectStore p s) = readLatch l s := readLatch_congr rfl l

@[simp] theorem readLatch_connectAes (l r a k : Latch) (s : State) :
    readLatch l (connectAes r a k s) = readLatch l s := readLatch_congr rfl l

@[simp] theorem readLatch_setMem (l : Latch) (x : Memory) (s : State) :
    readLatch l (setMem x s) = readLatch l s := readLatch_congr rfl l

@[simp] theorem readLatch_setNext (l : Latch) (x : BitVec 9) (s : State) :
    readLatch l (setNext x s) = readLatch l s := readLatch_congr rfl l

@[simp] theorem readLatch_setInited (l : Latch) (x : Bool) (s : State) :
    readLatch l (setInited x s) = readLatch l s := readLatch_congr rfl l

@[simp] theorem readLatch_setRound (l : Latch) (x : BitVec 5) (s : State) :
    readLatch l (setRound x s) = readLatch l s := readLatch_congr rfl l

@[simp] theorem readLatch_setBr (l : Latch) (x : BitVec 4) (s : State) :
    readLatch l (setBr x s) = readLatch l s := readLatch_congr rfl l

@[simp] theorem readLatch_setKp (l : Latch) (x : BitVec 8) (s : State) :
    readLatch l (setKp x s) = readLatch l s := readLatch_congr rfl l

@[simp] theorem readLatch_setIdx (l : Latch) (x : BitVec 4) (s : State) :
    readLatch l (setIdx x s) = readLatch l s := readLatch_congr rfl l

@[simp] theorem readLatch_setCnt (l : Latch) (x : BitVec 28) (s : State) :
    readLatch l (setCnt x s) = readLatch l s := readLatch_congr rfl l

@[simp] theorem readLatch_setSeed (l : Latch) (x : Seed) (s : State) :
    readLatch l (setSeed x s) = readLatch l s := readLatch_congr rfl l

@[simp] theorem readLatch_setInputs (l : Latch) (x : List Event) (s : State) :
    readLatch l (setInputs x s) = readLatch l s := readLatch_congr rfl l

@[simp] theorem readLatch_setPorts (l : Latch) (x : Ports) (s : State) :
    readLatch l (setPorts x s) = readLatch l s := readLatch_congr rfl l

/-- PREV after a latch write. -/
@[simp] theorem writeLatch_prev (l : Latch) (v : Block) (s : State) :
    (writeLatch l v s).latches.prev = if l = .prev then v else s.latches.prev := by cases l <;> rfl

/-- A SNAP entry read after a SNAP write. -/
theorem readSnap_writeSnap (i j : BitVec 4) (v : Block) (s : State) :
    readSnap i (writeSnap j v s) = if i = j then v else readSnap i s := by
  unfold readSnap
  simp only [writeSnap_snap, Vector.getElem_set, BitVec.toNat_inj, eq_comm]

/-- SHUF is in the ROMs and nowhere else. -/
theorem readShuf_congr {s t : State} (h : s.roms = t.roms) (b : BitVec 4) : readShuf b s = readShuf b t := by
  simp [readShuf, h]

/-- A SNAP entry reads the SNAP file and nothing else. -/
theorem readSnap_congr {s t : State} (h : s.snap = t.snap) (i : BitVec 4) : readSnap i s = readSnap i t := by
  simp [readSnap, h]

@[simp] theorem presentSeed_init_seed (sd : Seed) (s : State) : (presentSeed .init sd s).seed = sd := rfl
@[simp] theorem presentSeed_reseed_seed (sd : Seed) (s : State) : (presentSeed .reseed sd s).seed = sd := rfl

@[simp] theorem andThen_next {σ τ : Type} (s : σ) (f : σ → Host.Outcome τ Fault Refusal) :
    andThen (.next s) f = f s := by simp only [andThen]

@[simp] theorem andThen_refused {σ τ : Type} (r : Refusal) (f : σ → Host.Outcome τ Fault Refusal) :
    andThen (.refused r) f = .refused r := by simp only [andThen]

/-- What a sequence that answers a next state did: both parts answered one. -/
theorem andThen_eq_next {σ τ : Type} {o : Host.Outcome σ Fault Refusal} {f : σ → Host.Outcome τ Fault Refusal} {t : τ}
    (h : andThen o f = .next t) : ∃ s, o = .next s ∧ f s = .next t := by
  cases o with
  | next s => exact ⟨s, rfl, h⟩
  | fault r => exact nomatch r
  | refused r => exact nomatch h

end Sys2Proof.Machine
end

