-- ==== Sys2Proof/Laws/Ops.lean ====
section
/-! SUPPORT. What each micro-operation does, said once, and the law of the counted loop. -/

namespace Sys2Proof.Machine

/-! ### The data ports -/

theorem writeLoadPort_latch {l : Latch} {s : State} (h : s.ports.load = .latch l) (v : Block) :
    writeLoadPort v s = writeLatch l v s := by simp [writeLoadPort, h]

theorem writeLoadPort_snap {i : BitVec 4} {s : State} (h : s.ports.load = .snap i) (v : Block) :
    writeLoadPort v s = writeSnap i v s := by simp [writeLoadPort, h]

theorem readStorePort_latch {l : Latch} {s : State} (h : s.ports.store = .latch l) :
    readStorePort s = readLatch l s := by simp [readStorePort, h]

theorem readStorePort_snap {i : BitVec 4} {s : State} (h : s.ports.store = .snap i) :
    readStorePort s = readSnap i s := by simp [readStorePort, h]

theorem readStorePort_xor {x y : Latch} {s : State} (h : s.ports.store = .xor x y) :
    readStorePort s = xor128 (readLatch x s) (readLatch y s) := by simp [readStorePort, h]

/-! ### The five micro-operations -/

theorem execVloadState_eq (i : BitVec 4) (s : State) :
    execVloadState i s = .next (writeLoadPort (readBlock s.mem i.toNat) (recordWord (vloadStateWord i) s)) := by
  simp [execVloadState, dispatchLoad, memRead, i.isLt]

theorem execVloadSeed_eq (i : BitVec 4) (s : State) (h : i.toNat < 15) :
    execVloadSeed i s = .next (writeLoadPort s.seed[i.toNat] (recordWord (vloadSeedWord i) s)) := by
  simp [execVloadSeed, dispatchLoad, memRead, h]

theorem execVloadSeed_reserved (i : BitVec 4) (s : State) (h : ¬ i.toNat < 15) :
    execVloadSeed i s = .refused (.reservedMicroOp (vloadSeedWord i)) := by
  simp [execVloadSeed, dispatchLoad, memRead, h]

theorem execVloadRkrom_eq (k : BitVec 8) (s : State) (h : k.toNat < 136) :
    execVloadRkrom k s = .next (writeLoadPort s.roms.rk[k.toNat] (recordWord (vloadRkromWord k) s)) := by
  simp [execVloadRkrom, dispatchLoad, memRead, h]

theorem execVloadRkrom_reserved (k : BitVec 8) (s : State) (h : ¬ k.toNat < 136) :
    execVloadRkrom k s = .refused (.reservedMicroOp (vloadRkromWord k)) := by
  simp [execVloadRkrom, dispatchLoad, memRead, h]

theorem execVstoreState_eq (i : BitVec 4) (s : State) :
    execVstoreState i s = .next (memWrite i.toNat (readStorePort s) (recordWord (vstoreStateWord i) s)) := rfl

theorem execVaesrnd_eq (s : State) :
    execVaesrnd s = .next (writeLatch s.ports.aesResult
      (aesRound (readLatch s.ports.aesState s) (readLatch s.ports.aesKey s)) (recordWord vaesrndWord s)) := rfl

/-! ### The micro-operations as a routine issues them, the port connected first -/

theorem loadState_latch (l : Latch) (i : BitVec 4) (s : State) :
    execVloadState i (connectLoad (.latch l) s) =
      .next (writeLatch l (readBlock s.mem i.toNat) (recordWord (vloadStateWord i) (connectLoad (.latch l) s))) := by
  rw [execVloadState_eq, writeLoadPort_latch (l := l) (by simp), connectLoad_mem]

theorem loadState_snap (j i : BitVec 4) (s : State) :
    execVloadState i (connectLoad (.snap j) s) =
      .next (writeSnap j (readBlock s.mem i.toNat) (recordWord (vloadStateWord i) (connectLoad (.snap j) s))) := by
  rw [execVloadState_eq, writeLoadPort_snap (i := j) (by simp), connectLoad_mem]

theorem loadSeed_latch (l : Latch) (i : BitVec 4) (s : State) (h : i.toNat < 15) :
    execVloadSeed i (connectLoad (.latch l) s) =
      .next (writeLatch l s.seed[i.toNat] (recordWord (vloadSeedWord i) (connectLoad (.latch l) s))) := by
  rw [execVloadSeed_eq _ _ h, writeLoadPort_latch (l := l) (by simp)]; simp

theorem loadRkrom_latch (l : Latch) (k : BitVec 8) (s : State) (h : k.toNat < 136) :
    execVloadRkrom k (connectLoad (.latch l) s) =
      .next (writeLatch l s.roms.rk[k.toNat] (recordWord (vloadRkromWord k) (connectLoad (.latch l) s))) := by
  rw [execVloadRkrom_eq _ _ h, writeLoadPort_latch (l := l) (by simp)]; simp

theorem storeState_latch (l : Latch) (i : BitVec 4) (s : State) :
    execVstoreState i (connectStore (.latch l) s) =
      .next (memWrite i.toNat (readLatch l s) (recordWord (vstoreStateWord i) (connectStore (.latch l) s))) := by
  rw [execVstoreState_eq, readStorePort_latch (l := l) (by simp), readLatch_connectStore]

theorem storeState_snap (j i : BitVec 4) (s : State) :
    execVstoreState i (connectStore (.snap j) s) =
      .next (memWrite i.toNat (readSnap j s) (recordWord (vstoreStateWord i) (connectStore (.snap j) s))) := by
  rw [execVstoreState_eq, readStorePort_snap (i := j) (by simp), readSnap_congr (t := s) (by simp)]

theorem storeState_xor (x y : Latch) (i : BitVec 4) (s : State) :
    execVstoreState i (connectStore (.xor x y) s) =
      .next (memWrite i.toNat (xor128 (readLatch x s) (readLatch y s))
        (recordWord (vstoreStateWord i) (connectStore (.xor x y) s))) := by
  rw [execVstoreState_eq, readStorePort_xor (x := x) (y := y) (by simp), readLatch_connectStore, readLatch_connectStore]

theorem aesRound_latches (r a k : Latch) (s : State) :
    execVaesrnd (connectAes r a k s) =
      .next (writeLatch r (aesRound (readLatch a s) (readLatch k s)) (recordWord vaesrndWord (connectAes r a k s))) := by
  rw [execVaesrnd_eq]; simp

/-! ### Counted loops -/

/-- A counted loop: what holds before the first pass and is carried by every pass holds after the last. -/
theorem forEach_induct {α : Type} (body : α → State → Result) (l : List α) (P : Nat → State → Prop) {s : State}
    (h0 : P 0 s)
    (hstep : ∀ n (hn : n < l.length) s, P n s → ∃ t, body l[n] s = .next t ∧ P (n + 1) t) :
    ∃ t, forEach body l s = .next t ∧ P l.length t := by
  induction l generalizing s P with
  | nil => exact ⟨s, rfl, h0⟩
  | cons a l ih =>
    obtain ⟨t, ht, hp⟩ := hstep 0 (by simp) s h0
    obtain ⟨u, hu, hq⟩ := ih (fun n => P (n + 1)) hp fun n hn s hs => hstep (n + 1) (by simpa using hn) s hs
    exact ⟨u, by simpa [forEach, show body a s = .next t from ht] using hu, hq⟩

/-! ### The frame of a routine -/

theorem RoutineFrame.refl (s : State) : RoutineFrame s s := ⟨rfl, rfl, rfl, rfl, rfl, rfl, rfl, rfl⟩

theorem RoutineFrame.trans {s t u : State} (h : RoutineFrame s t) (k : RoutineFrame t u) : RoutineFrame s u :=
  ⟨k.next.trans h.next, k.inited.trans h.inited, k.roms.trans h.roms, k.seed.trans h.seed, k.cnt.trans h.cnt,
    k.response.trans h.response, k.inputs.trans h.inputs, k.epoch.trans h.epoch⟩

theorem PermuteFrame.refl (s : State) : PermuteFrame s s := ⟨RoutineFrame.refl s, rfl⟩

theorem PermuteFrame.trans {s t u : State} (h : PermuteFrame s t) (k : PermuteFrame t u) : PermuteFrame s u :=
  ⟨h.toRoutineFrame.trans k.toRoutineFrame, k.prev.trans h.prev⟩

/-- A frame from the updates of one pass of a loop. -/
theorem PermuteFrame.of_fields {s t : State} (h1 : t.next = s.next) (h2 : t.inited = s.inited) (h3 : t.roms = s.roms)
    (h4 : t.seed = s.seed) (h5 : t.cnt = s.cnt) (h6 : t.response = s.response) (h7 : t.inputs = s.inputs)
    (h8 : t.epoch = s.epoch) (h9 : t.latches.prev = s.latches.prev) : PermuteFrame s t :=
  ⟨⟨h1, h2, h3, h4, h5, h6, h7, h8⟩, h9⟩

end Sys2Proof.Machine
end

