-- ==== Sys2Proof/Laws/Permutation.lean ====
section
/-! SUPPORT. What KNEXT, BRANCH, FROUND, BSHUF and PERMUTE do, each said once. -/

namespace Sys2Proof.Machine

@[simp] theorem blocksOf_getElem (m : Memory) (b : Nat) (hb : b < 16) : (blocksOf m)[b] = readBlock m b := by
  simp [blocksOf]

/-! ### Indices -/

theorem evenIndices_getElem : ∀ n : Fin 8, (evenIndices[n.val]'n.isLt).toNat = 2 * n.val := by decide

theorem blockIndices_getElem : ∀ n : Fin 16, (blockIndices[n.val]'n.isLt).toNat = n.val := by decide

theorem roundNumbers_getElem : ∀ n : Fin 17, (roundNumbers[n.val]'n.isLt).toNat = n.val := by decide

/-! ### KNEXT and BRANCH -/

/-- BRANCH: what it stores, which key it takes, which words it issues. -/
theorem branch_spec (b : BitVec 4) (s : State) (hk : s.kp.toNat < 136) :
    ∃ t, branch b s = .next t ∧ PermuteFrame s t ∧
      t.mem = writeBlock s.mem (b + 1).toNat
        (aesRound (aesRound (readBlock s.mem b.toNat) s.roms.rk[s.kp.toNat]) (readBlock s.mem (b + 1).toNat)) ∧
      t.kp = s.kp + 1 ∧ t.issued = (branchWords b s.kp).reverse ++ s.issued := by
  simp only [branch, knext, loadState_latch, andThen_next, aesRound_latches, storeState_latch]
  rw [loadRkrom_latch _ _ _ (by simpa using hk)]
  simp only [andThen_next]
  refine ⟨_, rfl, .of_fields ?_ ?_ ?_ ?_ ?_ ?_ ?_ ?_ ?_, ?_, ?_, ?_⟩ <;>
    simp [readLatch_writeLatch, branchWords]

/-- The target of FROUND: block `c` after the branch updates of one round whose first key is `k0`. -/
def roundTarget (s : State) (k0 c : Nat) (h : k0 + c / 2 < 136) : Block :=
  aesRound (aesRound (readBlock s.mem (c - 1)) s.roms.rk[k0 + c / 2]) (readBlock s.mem c)

/-- FROUND: every odd block is replaced, each with its own key; the even blocks keep (R144). -/
theorem fround_spec (s : State) (hw : Memory.wf s.mem) (hk : s.kp.toNat + 8 ≤ 136) :
    ∃ t, fround s = .next t ∧ PermuteFrame s t ∧ Memory.wf t.mem ∧
      (∀ c (hc : c < 16), readBlock t.mem c =
        if c % 2 = 1 then roundTarget s s.kp.toNat c (by omega) else readBlock s.mem c) ∧
      t.kp = s.kp + 8 ∧ t.issued = (froundWords s.kp).reverse ++ s.issued := by
  obtain ⟨t, ht, hf, hwf, hm, hkp, hi⟩ := forEach_induct (fun b s => branch b (setBr b s)) evenIndices
    (fun n t => PermuteFrame s t ∧ Memory.wf t.mem ∧
      (∀ c (hc : c < 16), readBlock t.mem c =
        if c % 2 = 1 ∧ c / 2 < n then roundTarget s s.kp.toNat c (by omega) else readBlock s.mem c) ∧
      t.kp.toNat = s.kp.toNat + n ∧
      t.issued = ((evenIndices.take n).flatMap fun b => branchWords b (s.kp + b.setWidth 8 / 2)).reverse ++ s.issued)
    (s := s) ⟨PermuteFrame.refl s, hw, by simp, rfl, by simp⟩ (by
      rintro n hn u ⟨hf, hwf, hm, hkp, hi⟩
      have hn8 : n < 8 := hn
      have hb := evenIndices_getElem ⟨n, hn8⟩
      simp only at hb
      have htake := List.take_succ_eq_append_getElem hn
      generalize hbdef : evenIndices[n] = b at hb htake ⊢
      have hb1 : (b + 1).toNat = 2 * n + 1 := by rw [BitVec.toNat_add]; simp [hb]; omega
      obtain ⟨t, ht, gf, gm, gk, gi⟩ := branch_spec b (setBr b u) (by rw [setBr_kp]; omega)
      simp only [setBr_mem, setBr_roms, setBr_kp, setBr_issued] at gm gk gi
      have hwf' : Memory.wf t.mem := by rw [gm]; exact writeBlock_wf hwf (by omega) _
      refine ⟨t, ht, hf.trans ((PermuteFrame.of_fields (s := u) (t := setBr b u) rfl rfl rfl rfl rfl rfl rfl rfl rfl).trans gf),
        hwf', fun c hc => ?_, ?_, ?_⟩
      · rw [gm, readBlock_writeBlock hwf (by omega), hb, hb1]
        by_cases hcn : c = 2 * n + 1
        · subst hcn
          rw [if_pos rfl, if_pos (by omega), roundTarget]
          have h1 := hm (2 * n) (by omega)
          have h2 := hm (2 * n + 1) (by omega)
          rw [if_neg (by omega)] at h1 h2
          have e1 : (2 * n + 1) / 2 = n := by omega
          have e2 : 2 * n + 1 - 1 = 2 * n := by omega
          simp only [h1, h2, e1, e2, hf.roms, hkp]
        · rw [if_neg hcn, hm c hc]
          by_cases h : c % 2 = 1 ∧ c / 2 < n
          · rw [if_pos h, if_pos (by omega)]
          · rw [if_neg h, if_neg (by omega)]
      · rw [gk, BitVec.toNat_add]
        simp; omega
      · rw [gi]
        have hkeq : u.kp = s.kp + b.setWidth 8 / 2 := by
          apply BitVec.eq_of_toNat_eq
          rw [hkp, BitVec.toNat_add, BitVec.toNat_udiv, BitVec.toNat_setWidth, hb]
          simp; omega
        rw [htake, hi, hkeq, List.flatMap_append, List.flatMap_singleton,
          List.reverse_append, List.append_assoc])
  refine ⟨t, ht, hf, hwf, fun c hc => ?_, ?_, ?_⟩
  · rw [hm c hc]
    have : evenIndices.length = 8 := rfl
    by_cases h : c % 2 = 1
    · rw [if_pos h, if_pos (by omega)]
    · rw [if_neg h, if_neg (by omega)]
  · apply BitVec.eq_of_toNat_eq
    rw [hkp, BitVec.toNat_add]
    show s.kp.toNat + 8 = _
    simp; omega
  · rw [hi, List.take_length]; rfl

/-! ### BSHUF -/

/-- The snapshot: every SNAP entry holds its block, the buffer is unchanged. -/
theorem snapshot_spec (s : State) :
    ∃ t, snapshot s = .next t ∧ PermuteFrame s t ∧ t.mem = s.mem ∧ t.kp = s.kp ∧
      (∀ c : BitVec 4, readSnap c t = readBlock s.mem c.toNat) ∧
      t.issued = (blockIndices.map vloadStateWord).reverse ++ s.issued := by
  obtain ⟨t, ht, hf, hm, hk, hs, hi⟩ := forEach_induct
    (fun i s => execVloadState i (connectLoad (.snap i) (setIdx i s))) blockIndices
    (fun n t => PermuteFrame s t ∧ t.mem = s.mem ∧ t.kp = s.kp ∧
      (∀ c : BitVec 4, c.toNat < n → readSnap c t = readBlock s.mem c.toNat) ∧
      t.issued = ((blockIndices.take n).map vloadStateWord).reverse ++ s.issued)
    (s := s) ⟨PermuteFrame.refl s, rfl, rfl, by simp, by simp⟩ (by
      rintro n hn u ⟨hf, hm, hk, hs, hi⟩
      have hb := blockIndices_getElem ⟨n, hn⟩
      simp only at hb
      have htake := List.take_succ_eq_append_getElem hn
      generalize hbdef : blockIndices[n] = b at hb htake ⊢
      rw [loadState_snap]
      refine ⟨_, rfl, hf.trans (.of_fields (by simp) (by simp) (by simp) (by simp) (by simp) (by simp) (by simp) (by simp) (by simp)),
        by simpa using hm, by simpa using hk, fun c hc => ?_, ?_⟩
      · have hn16 : n < 16 := hn
        rw [readSnap_writeSnap]
        by_cases h : c = b
        · rw [if_pos h, h]; simp [hm]
        · have : c.toNat ≠ n := fun e => h (BitVec.eq_of_toNat_eq (by omega))
          rw [if_neg h, readSnap_congr (t := u) (by simp), hs c (by omega)]
      · rw [htake, List.map_append, List.reverse_append]
        simp [hi])
  exact ⟨t, ht, hf, hm, hk, fun c => hs c c.isLt, by rw [hi, List.take_length]⟩

/-- The gather: block `c` becomes SNAP entry `SHUF[c]`. -/
theorem gatherSnapshot_spec (s : State) (hw : Memory.wf s.mem) :
    ∃ t, gatherSnapshot s = .next t ∧ PermuteFrame s t ∧ Memory.wf t.mem ∧ t.kp = s.kp ∧
      (∀ c : BitVec 4, readBlock t.mem c.toNat = readSnap (readShuf c s) s) ∧
      t.issued = (blockIndices.map vstoreStateWord).reverse ++ s.issued := by
  obtain ⟨t, ht, hf, hwf, hk, hs, hm, hi⟩ := forEach_induct
    (fun i s => execVstoreState i (connectStore (.snap (readShuf i s)) (setIdx i s))) blockIndices
    (fun n t => PermuteFrame s t ∧ Memory.wf t.mem ∧ t.kp = s.kp ∧ t.snap = s.snap ∧
      (∀ c : BitVec 4, c.toNat < n → readBlock t.mem c.toNat = readSnap (readShuf c s) s) ∧
      t.issued = ((blockIndices.take n).map vstoreStateWord).reverse ++ s.issued)
    (s := s) ⟨PermuteFrame.refl s, hw, rfl, rfl, by simp, by simp⟩ (by
      rintro n hn u ⟨hf, hwf, hk, hs, hm, hi⟩
      have hn16 : n < 16 := hn
      have hb := blockIndices_getElem ⟨n, hn⟩
      simp only at hb
      have htake := List.take_succ_eq_append_getElem hn
      generalize hbdef : blockIndices[n] = b at hb htake ⊢
      rw [storeState_snap]
      refine ⟨_, rfl, hf.trans (.of_fields (by simp) (by simp) (by simp) (by simp) (by simp) (by simp) (by simp) (by simp) (by simp)),
        ?_, by simpa using hk, by simpa using hs, fun c hc => ?_, ?_⟩
      · simp only [memWrite_mem, recordWord_mem, connectStore_mem, setIdx_mem]
        exact writeBlock_wf hwf (by omega) _
      · simp only [memWrite_mem, recordWord_mem, connectStore_mem, setIdx_mem]
        rw [readBlock_writeBlock hwf (by omega)]
        by_cases h : c.toNat = b.toNat
        · rw [if_pos h, BitVec.eq_of_toNat_eq h, readShuf_congr (t := s) hf.roms]
          exact readSnap_congr (by simpa using hs) _
        · rw [if_neg h, hm c (by omega)]
      · rw [htake, List.map_append, List.reverse_append]
        simp [hi])
  exact ⟨t, ht, hf, hwf, hk, fun c => hm c c.isLt, by rw [hi, List.take_length]⟩

/-- BSHUF: block `c` becomes the old block `SHUF[c]` (R145). -/
theorem bshuf_spec (s : State) (hw : Memory.wf s.mem) :
    ∃ t, bshuf s = .next t ∧ PermuteFrame s t ∧ Memory.wf t.mem ∧ t.kp = s.kp ∧
      (∀ c : BitVec 4, readBlock t.mem c.toNat = readBlock s.mem (readShuf c s).toNat) ∧
      t.issued = bshufWords.reverse ++ s.issued := by
  obtain ⟨u, hu, uf, um, uk, us, ui⟩ := snapshot_spec s
  obtain ⟨t, ht, tf, tw, tk, tm, ti⟩ := gatherSnapshot_spec u (um ▸ hw)
  refine ⟨t, by rw [bshuf, hu, andThen_next, ht], uf.trans tf, tw, tk.trans uk, fun c => ?_, ?_⟩
  · rw [tm, us, readShuf_congr (t := s) uf.roms]
  · rw [ti, ui, bshufWords, List.reverse_append, List.append_assoc]

/-! ### The rounds -/

/-- BSHUF on the blocks. -/
theorem bshuf_blocks {s t : State} (h : ∀ c : BitVec 4, readBlock t.mem c.toNat = readBlock s.mem (readShuf c s).toNat) :
    blocksOf t.mem = refShuffle s.roms.shuf (blocksOf s.mem) := by
  ext1 c hc
  have e : (BitVec.ofNat 4 c).toNat = c := by simp; omega
  have := h (BitVec.ofNat 4 c)
  rw [e] at this
  rw [blocksOf_getElem, this, refShuffle, Vector.getElem_ofFn, blocksOf_getElem]
  simp only [readShuf, e, Fin.getElem_fin]

/-- One round: FROUND, then BSHUF. -/
theorem round_spec (r : Fin 17) (s : State) (hw : Memory.wf s.mem) (hk : s.kp.toNat = 8 * r.val) :
    ∃ t, andThen (fround s) bshuf = .next t ∧ PermuteFrame s t ∧ Memory.wf t.mem ∧
      blocksOf t.mem = refShuffle s.roms.shuf (refRound (roundKey s.roms r) (blocksOf s.mem)) ∧
      t.kp = s.kp + 8 ∧ t.issued = (froundWords s.kp ++ bshufWords).reverse ++ s.issued := by
  obtain ⟨u, hu, uf, uw, um, uk, ui⟩ := fround_spec s hw (by omega)
  obtain ⟨t, ht, tf, tw, tk, tm, ti⟩ := bshuf_spec u uw
  refine ⟨t, by rw [hu, andThen_next, ht], uf.trans tf, tw, ?_, tk.trans uk, ?_⟩
  · rw [bshuf_blocks tm, uf.roms]
    refine congrArg (refShuffle s.roms.shuf) ?_
    ext1 c hc
    rw [blocksOf_getElem, um c hc, refRound, Vector.getElem_ofFn]
    by_cases h : c % 2 = 1
    · rw [if_pos h, if_neg (by simpa using h), roundTarget]
      simp [roundKey, hk]
    · rw [if_neg h, if_pos (by simpa using h)]
      simp
  · rw [ti, ui, List.reverse_append, List.append_assoc]

/-- PERMUTE: the blocks become those of the 17 reference rounds; KP ends at 136; the words are fixed
(R146, R142). -/
theorem permute_spec (s : State) (hw : Memory.wf s.mem) :
    ∃ t, permute s = .next t ∧ PermuteFrame s t ∧ Memory.wf t.mem ∧
      blocksOf t.mem = refPermute s.roms (blocksOf s.mem) ∧
      t.kp = 136 ∧ t.issued = permuteWords.reverse ++ s.issued := by
  obtain ⟨t, ht, hf, hwf, hm, hk, hi⟩ := forEach_induct
    (fun r s => andThen (fround (setRound r s)) bshuf) roundNumbers
    (fun n t => PermuteFrame s t ∧ Memory.wf t.mem ∧
      blocksOf t.mem = refRounds s.roms ((List.finRange 17).take n) (blocksOf s.mem) ∧
      t.kp.toNat = 8 * n ∧
      t.issued = ((roundNumbers.take n).flatMap fun r => froundWords (8 * r.setWidth 8) ++ bshufWords).reverse ++ s.issued)
    (s := setKp 0 s) ⟨.of_fields rfl rfl rfl rfl rfl rfl rfl rfl rfl, hw, rfl, rfl, by simp⟩ (by
      rintro n hn u ⟨hf, hwf, hm, hk, hi⟩
      have hn17 : n < 17 := hn
      have hb := roundNumbers_getElem ⟨n, hn⟩
      simp only at hb
      have htake := List.take_succ_eq_append_getElem hn
      generalize hrdef : roundNumbers[n] = r at hb htake ⊢
      obtain ⟨t, ht, tf, tw, tm, tk, ti⟩ := round_spec ⟨n, hn17⟩ (setRound r u) hwf hk
      refine ⟨t, ht, hf.trans ((PermuteFrame.of_fields (s := u) (t := setRound r u) rfl rfl rfl rfl rfl rfl rfl rfl rfl).trans tf),
        tw, ?_, ?_, ?_⟩
      · rw [tm, List.take_succ_eq_append_getElem (by simpa using hn17), refRounds, List.foldl_append, List.foldl_cons,
          List.foldl_nil]
        simp only [setRound_roms, setRound_mem]
        rw [hm, hf.roms, refRounds]
        simp
      · rw [tk, BitVec.toNat_add]
        simp; omega
      · rw [ti, htake]
        have hke : u.kp = 8 * r.setWidth 8 := by
          apply BitVec.eq_of_toNat_eq
          rw [hk, BitVec.toNat_mul, BitVec.toNat_setWidth, hb]
          simp; omega
        simp only [setRound_kp, setRound_issued]
        rw [hi, hke, List.flatMap_append, List.flatMap_singleton]
        simp only [List.reverse_append, List.append_assoc])
  refine ⟨t, ht, hf, hwf, ?_, ?_, ?_⟩
  · rw [hm, refPermute]
    congr 1
  · exact BitVec.eq_of_toNat_eq hk
  · rw [hi, List.take_length]; rfl

end Sys2Proof.Machine
end

