-- ==== Sys2Proof/Laws/Inverse.lean ====
section
/-! SUPPORT. The inverses behind rule R150 (spec/41_permutation.md): the reference round, the shuffle and the
reference permutation are bijections of the 16 blocks, and every 16 blocks are those of one buffer. -/

namespace Sys2Proof.Machine

/-! ### One AES round -/

/-- The key is XORed last (R119). -/
theorem aesRound_eq_xor (a k : Block) : aesRound a k = xor128 (aesRound a (constBlock 0)) k := by
  ext j hj
  simp [aesRound, xor128, constBlock]

theorem xor128_comm (x y : Block) : xor128 x y = xor128 y x := by
  ext1 j hj
  simp [xor128, BitVec.xor_comm]

/-- XOR with the same vector twice. -/
theorem xor128_cancel (x y : Block) : xor128 (xor128 x y) x = y := by
  ext1 j hj
  simp only [xor128, Vector.getElem_ofFn, Fin.getElem_fin]
  rw [BitVec.xor_comm, ← BitVec.xor_assoc, BitVec.xor_self, BitVec.zero_xor]

/-- R150 (a): the key input is recovered from the result and the state input. -/
theorem aesRound_key (a k : Block) : xor128 (aesRound a k) (aesRound a (constBlock 0)) = k := by
  rw [aesRound_eq_xor a k, xor128_cancel]

theorem aesRound_of_key (a v : Block) : aesRound a (xor128 v (aesRound a (constBlock 0))) = v := by
  rw [aesRound_eq_xor, xor128_comm v, xor128_comm, xor128_comm (aesRound _ _) v, xor128_comm v, xor128_cancel]

/-! ### The Feistel part -/

/-- The inverse of the reference round. -/
def unRound (key : Fin 8 → Block) (S : Blocks) : Blocks := Vector.ofFn fun b =>
  if b.val % 2 = 0 then S[b]
  else xor128 S[b] (aesRound (aesRound (S[b.val - 1]) (key ⟨b.val / 2, by omega⟩)) (constBlock 0))

theorem refRound_even (key : Fin 8 → Block) (S : Blocks) (b : Nat) (hb : b < 16) (h : b % 2 = 0) :
    (refRound key S)[b] = S[b] := by simp [refRound, h]

theorem refRound_odd (key : Fin 8 → Block) (S : Blocks) (b : Nat) (hb : b < 16) (h : ¬ b % 2 = 0) :
    (refRound key S)[b] = aesRound (aesRound S[b - 1] (key ⟨b / 2, by omega⟩)) S[b] := by
  rw [refRound, Vector.getElem_ofFn, if_neg h]; rfl

theorem unRound_even (key : Fin 8 → Block) (S : Blocks) (b : Nat) (hb : b < 16) (h : b % 2 = 0) :
    (unRound key S)[b] = S[b] := by simp [unRound, h]

theorem unRound_odd (key : Fin 8 → Block) (S : Blocks) (b : Nat) (hb : b < 16) (h : ¬ b % 2 = 0) :
    (unRound key S)[b] = xor128 S[b] (aesRound (aesRound S[b - 1] (key ⟨b / 2, by omega⟩)) (constBlock 0)) := by
  rw [unRound, Vector.getElem_ofFn, if_neg h]; rfl

/-- The reference round is a bijection whatever the keys (R150 (b)). -/
theorem refRound_bijective (key : Fin 8 → Block) : Function.Bijective (refRound key) := by
  refine Function.bijective_iff_has_inverse.mpr ⟨unRound key, fun S => ?_, fun S => ?_⟩
  · ext1 b hb
    by_cases h : b % 2 = 0
    · rw [unRound_even _ _ _ hb h, refRound_even _ _ _ hb h]
    · rw [unRound_odd _ _ _ hb h, refRound_odd _ _ _ hb h, refRound_even _ _ (b - 1) (by omega) (by omega), aesRound_key]
  · ext1 b hb
    by_cases h : b % 2 = 0
    · rw [refRound_even _ _ _ hb h, unRound_even _ _ _ hb h]
    · rw [refRound_odd _ _ _ hb h, unRound_odd _ _ _ hb h, unRound_even _ _ (b - 1) (by omega) (by omega), aesRound_of_key]

/-! ### The shuffle -/

/-- The shuffle with the table of R27 is a bijection (R150 (b)). -/
theorem refShuffle_bijective : Function.Bijective (refShuffle shufTable) := by
  refine Function.bijective_iff_has_inverse.mpr
    ⟨refShuffle #v[9, 12, 1, 6, 3, 14, 7, 0, 5, 10, 11, 4, 15, 2, 13, 8], fun S => ?_, fun S => ?_⟩ <;>
  · ext1 b hb
    simp only [refShuffle, shufTable, Vector.getElem_ofFn, Fin.getElem_fin]
    interval_cases b <;> rfl

/-! ### The permutation -/

/-- With the table of R27 the reference permutation is a bijection whatever the round keys (R150 (b)). -/
theorem refPermute_bijective (roms : Roms) (h : roms.shuf = shufTable) : Function.Bijective (refPermute roms) := by
  have key : ∀ rs : List (Fin 17), Function.Bijective (refRounds roms rs) := by
    intro rs
    induction rs with
    | nil => exact Function.bijective_id
    | cons r rs ih => exact ih.comp ((h ▸ refShuffle_bijective).comp (refRound_bijective (roundKey roms r)))
  exact key _

/-! ### Buffers and blocks -/

/-- Equal blocks, equal buffers. -/
theorem blocksOf_injective {m m' : Memory} (h : Memory.wf m) (h' : Memory.wf m') (e : blocksOf m = blocksOf m') : m = m' :=
  Memory.ext_blocks h h' fun b hb => by rw [← blocksOf_getElem m b hb, ← blocksOf_getElem m' b hb, e]

/-- Every 16 blocks are those of a buffer in canonical form. -/
theorem exists_memory_of_blocks (S : Blocks) : ∃ m, Memory.wf m ∧ blocksOf m = S := by
  have key : ∀ n, n ≤ 16 → ∃ m, Memory.wf m ∧ ∀ c (hc : c < 16), c < n → readBlock m c = S[c] := by
    intro n
    induction n with
    | zero => exact fun _ => ⟨[], Memory.wf_nil, fun c _ h => absurd h (by omega)⟩
    | succ n ih =>
      intro hn
      obtain ⟨m, hm, hr⟩ := ih (by omega)
      refine ⟨writeBlock m n S[n], writeBlock_wf hm (by omega) _, fun c hc h => ?_⟩
      rw [readBlock_writeBlock hm (by omega)]
      by_cases e : c = n
      · subst e; rw [if_pos rfl]
      · rw [if_neg e, hr c hc (by omega)]
  obtain ⟨m, hm, hr⟩ := key 16 (by omega)
  refine ⟨m, hm, ?_⟩
  ext1 c hc
  rw [blocksOf_getElem, hr c hc hc]

end Sys2Proof.Machine
end

