-- ==== Sys2Proof/Laws/PerInstr.lean ====
section
/-! SUPPORT. The statement made instruction by instruction: the word of a well-formed instruction has the
format, the match and the mask of its row of spec/opcode_table.json. -/

namespace Sys2Proof.Laws.EncodeInTable

/-- `cw` is a 32-bit word with the given mask and match. -/
def commandRow (mask value : BitVec 32) (cw : CodeWord) : Prop := ∃ w, cw = .command w ∧ w &&& mask = value

/-- `cw` is a 16-bit word with the given mask and match. -/
def microRow (mask value : BitVec 16) (cw : CodeWord) : Prop := ∃ w, cw = .microOp w ∧ w &&& mask = value

/-- The row of an instruction in the opcode table (spec/30_encoding.md R85, R89). -/
def row : Instr → CodeWord → Prop
  | .init => commandRow 0xFFFFFFFF 0x10000000
  | .reseed => commandRow 0xFFFFFFFF 0x20000000
  | .genbyte => commandRow 0xFFFFFFFF 0x30000000
  | .generate _ => commandRow 0xF0000000 0x40000000
  | .vloadState _ => microRow 0xFFF0 0x4000
  | .vloadSeed _ => microRow 0xFFF0 0x5000
  | .vloadRkrom _ => microRow 0xFF00 0x6000
  | .vstoreState _ => microRow 0xFFF0 0x8000
  | .vaesrnd => microRow 0xFFFF 0xC000

/-- A well-formed instruction's word lies in its row. -/
def Statement (i : Instr) : Prop := i.wf = true → row i (encode i)

theorem init : Statement .init := fun _ => ⟨_, rfl, by decide⟩

theorem reseed : Statement .reseed := fun _ => ⟨_, rfl, by decide⟩

theorem genbyte : Statement .genbyte := fun _ => ⟨_, rfl, by decide⟩

/-- The word of GENERATE is its operation code above its count (R81). -/
theorem generateWord_append (count : BitVec 28) : generateWord count = (4 : BitVec 4) ++ count := by
  have := count.isLt
  apply BitVec.eq_of_toNat_eq
  rw [BitVec.toNat_append, Nat.shiftLeft_eq, Nat.mul_comm, ← Nat.two_pow_add_eq_or_of_lt count.isLt]
  simp [generateWord]
  omega

theorem generate (count : BitVec 28) : Statement (.generate count) := by
  refine fun _ => ⟨_, rfl, ?_⟩
  rw [generateWord_append, show (0xF0000000 : BitVec 32) = (0xF : BitVec 4) ++ (0 : BitVec 28) from rfl,
    BitVec.and_append]
  simp

theorem vloadState (i : BitVec 4) : Statement (.vloadState i) := fun _ => ⟨_, rfl, by revert i; decide⟩

theorem vloadSeed (i : BitVec 4) : Statement (.vloadSeed i) := fun _ => ⟨_, rfl, by revert i; decide⟩

theorem vloadRkrom (k : BitVec 8) : Statement (.vloadRkrom k) := fun _ => ⟨_, rfl, by revert k; decide +kernel⟩

theorem vstoreState (i : BitVec 4) : Statement (.vstoreState i) := fun _ => ⟨_, rfl, by revert i; decide⟩

theorem vaesrnd : Statement .vaesrnd := fun _ => ⟨_, rfl, by decide⟩

end Sys2Proof.Laws.EncodeInTable
end

