-- ==== Sys2Proof/Laws/Sponge.lean ====
section
/-! SUPPORT. What ABSORB, REGEN, NEXTBYTE and the loop of GENERATE do, each said once, and the form every
host command's next state has. -/

namespace Sys2Proof.Machine

theorem seedIndices_getElem : ∀ n : Fin 15, (seedIndices[n.val]'n.isLt).toNat = n.val := by decide

/-- One step of ABSORB. -/
theorem absorbBlock_spec (i : BitVec 4) (s : State) (h : i.toNat < 15) :
    ∃ t, absorbBlock i s = .next t ∧ PermuteFrame s t ∧
      t.mem = writeBlock s.mem (i + 1).toNat (xor128 (readBlock s.mem (i + 1).toNat) s.seed[i.toNat]) ∧
      t.issued = vstoreStateWord (i + 1) :: vloadSeedWord i :: vloadStateWord (i + 1) :: s.issued := by
  simp only [absorbBlock, loadState_latch, andThen_next, loadSeed_latch _ _ _ h, storeState_xor]
  refine ⟨_, rfl, .of_fields ?_ ?_ ?_ ?_ ?_ ?_ ?_ ?_ ?_, ?_, ?_⟩ <;> simp [readLatch_writeLatch]

/-- ABSORB: the capacity block is kept, every rate block is XORed with its seed block (R161). -/
theorem absorb_spec (s : State) (hw : Memory.wf s.mem) :
    ∃ t, absorb s = .next t ∧ PermuteFrame s t ∧ Memory.wf t.mem ∧
      blocksOf t.mem = refAbsorb s.seed (blocksOf s.mem) ∧ t.issued = absorbWords.reverse ++ s.issued := by
  obtain ⟨t, ht, hf, hwf, hm, hi⟩ := forEach_induct absorbBlock seedIndices
    (fun n t => PermuteFrame s t ∧ Memory.wf t.mem ∧
      (∀ c (hc : c < 16), readBlock t.mem c =
        if h : 1 ≤ c ∧ c ≤ n then xor128 (readBlock s.mem c) (s.seed[c - 1]'(by omega)) else readBlock s.mem c) ∧
      t.issued = ((seedIndices.take n).flatMap
        fun i => [vloadStateWord (i + 1), vloadSeedWord i, vstoreStateWord (i + 1)]).reverse ++ s.issued)
    (s := s) ⟨PermuteFrame.refl s, hw, fun c hc => by rw [dif_neg (by omega)], by simp⟩ (by
      rintro n hn u ⟨hf, hwf, hm, hi⟩
      have hn15 : n < 15 := hn
      have hb := seedIndices_getElem ⟨n, hn⟩
      simp only at hb
      have htake := List.take_succ_eq_append_getElem hn
      generalize hbdef : seedIndices[n] = b at hb htake ⊢
      have hb1 : (b + 1).toNat = n + 1 := by rw [BitVec.toNat_add]; simp [hb]; omega
      obtain ⟨t, ht, gf, gm, gi⟩ := absorbBlock_spec b u (by omega)
      have hwf' : Memory.wf t.mem := by rw [gm]; exact writeBlock_wf hwf (by omega) _
      refine ⟨t, ht, hf.trans gf, hwf', fun c hc => ?_, ?_⟩
      · rw [gm, readBlock_writeBlock hwf (by omega), hb1]
        by_cases hcn : c = n + 1
        · subst hcn
          rw [if_pos rfl, dif_pos (by omega), hm _ hc, dif_neg (by omega)]
          simp [hf.seed, hb]
        · rw [if_neg hcn, hm c hc]
          by_cases h : 1 ≤ c ∧ c ≤ n
          · rw [dif_pos h, dif_pos (by omega)]
          · rw [dif_neg h, dif_neg (by omega)]
      · rw [gi, htake, hi, List.flatMap_append, List.flatMap_singleton]
        simp)
  refine ⟨t, ht, hf, hwf, ?_, by rw [hi, List.take_length]; rfl⟩
  ext1 c hc
  have h15 : seedIndices.length = 15 := rfl
  rw [blocksOf_getElem, hm c hc, refAbsorb, Vector.getElem_ofFn]
  by_cases h : c = 0
  · subst h; simp
  · rw [dif_pos (by omega), dif_neg (by simpa using h)]
    simp

/-- REGEN: the reference permutation with feed-forward; the words are fixed (R162). -/
theorem regen_spec (s : State) (hw : Memory.wf s.mem) :
    ∃ t, regen s = .next t ∧ RoutineFrame s t ∧ Memory.wf t.mem ∧
      blocksOf t.mem = refRegen s.roms (blocksOf s.mem) ∧ t.issued = regenWords.reverse ++ s.issued := by
  simp only [regen, loadState_latch, andThen_next]
  obtain ⟨u, hu, uf, uw, um, _, ui⟩ := permute_spec
    (writeLatch .prev (readBlock s.mem (0 : BitVec 4).toNat)
      (recordWord (vloadStateWord 0) (connectLoad (.latch .prev) s))) (by simpa using hw)
  have hprev : readLatch .prev u = readBlock s.mem 0 := by
    rw [readLatch, uf.prev]; simp
  simp only [writeLatch_mem, recordWord_mem, connectLoad_mem, writeLatch_roms, recordWord_roms, connectLoad_roms,
    writeLatch_issued, recordWord_issued, connectLoad_issued] at um ui
  rw [hu]
  simp only [andThen_next, storeState_xor]
  refine ⟨_, rfl, ⟨?_, ?_, ?_, ?_, ?_, ?_, ?_, ?_⟩, ?_, ?_, ?_⟩
  · simpa using uf.next
  · simpa using uf.inited
  · simpa using uf.roms
  · simpa using uf.seed
  · simpa using uf.cnt
  · simpa using uf.response
  · simpa using uf.inputs
  · simpa using uf.epoch
  · simp only [memWrite_mem, recordWord_mem, connectStore_mem, writeLatch_mem, connectLoad_mem]
    exact writeBlock_wf uw (by decide) _
  · simp only [memWrite_mem, recordWord_mem, connectStore_mem, writeLatch_mem, connectLoad_mem]
    have h0 : readBlock u.mem 0 = (refPermute s.roms (blocksOf s.mem))[0] := by
      rw [← um, blocksOf_getElem]
    ext1 c hc
    rw [blocksOf_getElem, readBlock_writeBlock uw (by decide), refRegen, Vector.getElem_set]
    by_cases h : c = 0
    · subst h
      simp [readLatch_writeLatch, hprev, h0]
    · have h' : ¬ 0 = c := fun e => h e.symm
      rw [if_neg (by simpa using h), if_neg h', ← um, blocksOf_getElem]
  · simp only [memWrite_issued, recordWord_issued, connectStore_issued, writeLatch_issued, connectLoad_issued, ui,
      regenWords, show vloadStateWord 0 = 0x4000 from by decide, show vstoreStateWord 0 = 0x8000 from by decide,
      List.reverse_append, List.reverse_cons, List.reverse_nil, List.nil_append, List.append_assoc, List.cons_append]

/-! ### Bytes -/

/-- A byte of the buffer is a byte of its blocks (spec/20_memory.md R53). -/
theorem refByte_blocksOf (m : Memory) (a : Nat) (h : a < 256) : refByte (blocksOf m) a h = readByte m a := by
  simp [refByte, Nat.div_add_mod]

/-- What NEXTBYTE leaves alone. -/
structure ByteFrame (s t : State) : Prop where
  inited : t.inited = s.inited
  roms : t.roms = s.roms
  seed : t.seed = s.seed
  cnt : t.cnt = s.cnt
  response : t.response = s.response
  inputs : t.inputs = s.inputs
  epoch : t.epoch = s.epoch

/-- NEXTBYTE agrees with the reference on blocks, cursor, byte and words (R165). -/
theorem nextByte_spec (s : State) (hw : Memory.wf s.mem) (h1 : 16 ≤ s.next.toNat) (h2 : s.next.toNat ≤ 256) :
    ∃ y t, nextByte s = .next (y, t) ∧ ByteFrame s t ∧ Memory.wf t.mem ∧
      (y, blocksOf t.mem, t.next.toNat) = refNextByte s.roms (blocksOf s.mem) s.next.toNat ∧
      t.issued = (generateWords 1 s.next.toNat).reverse ++ s.issued := by
  have hc : cursorInRange s = true := by simp [cursorInRange, h1, h2]
  by_cases hx : s.next.toNat < 256
  · have he : exhausted s = false := by simp [exhausted]; omega
    refine ⟨readByte s.mem s.next.toNat, setNext (s.next + 1) s, ?_, ⟨rfl, rfl, rfl, rfl, rfl, rfl, rfl⟩, hw, ?_, ?_⟩
    · simp [nextByte, refill, hc, he]
    · rw [refNextByte, dif_pos hx, refByte_blocksOf]
      refine Prod.ext rfl (Prod.ext rfl ?_)
      show (s.next + 1).toNat = _
      rw [BitVec.toNat_add]; simp; omega
    · simp [generateWords, hx]
  · have he : exhausted s = true := by simp [exhausted]; omega
    obtain ⟨u, hu, uf, uw, um, ui⟩ := regen_spec s hw
    refine ⟨readByte u.mem 16, setNext 17 u, ?_, ⟨uf.inited, uf.roms, uf.seed, uf.cnt, uf.response, uf.inputs, uf.epoch⟩,
      uw, ?_, ?_⟩
    · simp only [nextByte, refill, hc, he, if_true, hu, andThen_next]
      rfl
    · rw [refNextByte, dif_neg hx, ← um, refByte_blocksOf]
      rfl
    · simp only [generateWords, hx, if_false, setNext_issued, ui, List.append_nil]

/-- A cursor outside 16 to 256 is refused (spec/93_implementation_defined.md U7). -/
theorem nextByte_refused (s : State) (h : ¬ (16 ≤ s.next.toNat ∧ s.next.toNat ≤ 256)) :
    nextByte s = .refused (.cursorOutOfRange s.next) := by
  simp [nextByte, cursorInRange, h]

/-- The reference cursor stays where R35 says. -/
theorem refNextByte_cursor (roms : Roms) (S : Blocks) (n : Nat) (h1 : 16 ≤ n) (h2 : n ≤ 256) :
    17 ≤ (refNextByte roms S n).2.2 ∧ (refNextByte roms S n).2.2 ≤ 256 := by
  unfold refNextByte
  split
  · simp; omega
  · simp

/-- The cursor after one byte. -/
theorem refNextByte_next (roms : Roms) (S : Blocks) (n : Nat) :
    (refNextByte roms S n).2.2 = if n < 256 then n + 1 else 17 := by
  unfold refNextByte
  split <;> simp

/-- The words of `k + 1` bytes: those of the first, then those of the rest. -/
theorem generateWords_succ (k n : Nat) :
    generateWords (k + 1) n = generateWords 1 n ++ generateWords k (if n < 256 then n + 1 else 17) := by
  by_cases h : n < 256 <;> simp [generateWords, h]

/-- The loop of GENERATE agrees with the reference (R166). -/
theorem generateLoop_spec (k : Nat) : ∀ (out : List Byte) (s : State), Memory.wf s.mem → s.cnt.toNat = k →
    16 ≤ s.next.toNat → s.next.toNat ≤ 256 →
    ∃ t, generateLoop k out s =
        .next (out ++ (refGenerate s.roms k (blocksOf s.mem) s.next.toNat).1, t) ∧
      t.inited = s.inited ∧ t.roms = s.roms ∧ t.seed = s.seed ∧ t.response = s.response ∧ t.inputs = s.inputs ∧
      t.epoch = s.epoch ∧ Memory.wf t.mem ∧
      (blocksOf t.mem, t.next.toNat) = (refGenerate s.roms k (blocksOf s.mem) s.next.toNat).2 ∧
      t.issued = (generateWords k s.next.toNat).reverse ++ s.issued := by
  induction k with
  | zero =>
    intro out s hw hc h1 h2
    exact ⟨s, by simp [generateLoop, refGenerate], rfl, rfl, rfl, rfl, rfl, rfl, hw, rfl, by simp [generateWords]⟩
  | succ k ih =>
    intro out s hw hc h1 h2
    obtain ⟨y, u, hu, uf, uw, ub, ui⟩ := nextByte_spec s hw h1 h2
    have hcur := refNextByte_cursor s.roms (blocksOf s.mem) s.next.toNat h1 h2
    rw [← ub] at hcur
    simp only at hcur
    have hnext : u.next.toNat = if s.next.toNat < 256 then s.next.toNat + 1 else 17 := by
      rw [← refNextByte_next s.roms (blocksOf s.mem), ← ub]
    have hne : s.cnt ≠ 0 := fun e => by rw [e] at hc; simp at hc
    have hcnt : (u.cnt - 1).toNat = k := by
      rw [uf.cnt, BitVec.toNat_sub, hc]; simp; have := s.cnt.isLt; omega
    obtain ⟨t, ht, t1, t2, t3, t4, t5, t6, tw, tb, ti⟩ :=
      ih (out ++ [y]) (setCnt (u.cnt - 1) u) uw hcnt (by simp; omega) (by simp; omega)
    simp only [setCnt_inited, setCnt_roms, setCnt_seed, setCnt_response, setCnt_inputs, setCnt_epoch, setCnt_mem,
      setCnt_next, setCnt_issued] at ht t1 t2 t3 t4 t5 t6 tb ti
    rw [uf.roms] at ht tb
    refine ⟨t, ?_, t1.trans uf.inited, t2.trans uf.roms, t3.trans uf.seed, t4.trans uf.response, t5.trans uf.inputs,
      t6.trans uf.epoch, tw, ?_, ?_⟩
    · rw [generateLoop, if_neg hne, hu, andThen_next, ht, refGenerate, ← ub]
      simp
    · rw [tb, refGenerate, ← ub]
    · rw [ti, ui, generateWords_succ k s.next.toNat, hnext, List.reverse_append, List.append_assoc]

/-! ### The host commands -/

/-- INIT answers a next state from every state in canonical form (R163). -/
theorem execInit_spec (s : State) (hw : Memory.wf s.mem) :
    ∃ t, execInit s = .next t ∧ Memory.wf t.mem ∧ blocksOf t.mem = refAbsorb s.seed (blocksOf []) ∧
      t.next = 256 ∧ t.inited = true ∧ t.roms = s.roms ∧ t.inputs = s.inputs ∧ t.epoch = s.epoch + 1 ∧
      t.response = some { status := .ok, data := [] } ∧ t.issued = absorbWords.reverse := by
  obtain ⟨u, hu, uf, uw, um, ui⟩ := absorb_spec (setNext 256 (setNext 0 (setMem (zeroBuffer s.mem) (acceptCommand s))))
    (by simp only [setNext_mem, setMem_mem]; rw [zeroBuffer_eq_nil hw]; exact Memory.wf_nil)
  refine ⟨respond .ok [] (setInited true u), by rw [execInit, hu, andThen_next], by simpa using uw, ?_, ?_, by simp, ?_, ?_, ?_, by simp, ?_⟩
  · simp only [respond_mem, setInited_mem, um, setNext_mem, setMem_mem, setNext_seed, setMem_seed, acceptCommand_seed]
    rw [zeroBuffer_eq_nil hw]
  · simpa using uf.next
  · simpa using uf.roms
  · simpa using uf.inputs
  · simpa using uf.epoch
  · simpa using ui

/-- RESEED on an initialised CORE (R164). -/
theorem execReseed_spec (s : State) (hw : Memory.wf s.mem) (hi : s.inited = true) :
    ∃ t, execReseed s = .next t ∧ Memory.wf t.mem ∧ blocksOf t.mem = refAbsorb s.seed (blocksOf s.mem) ∧
      t.next = s.next ∧ t.inited = s.inited ∧ t.roms = s.roms ∧ t.inputs = s.inputs ∧ t.epoch = s.epoch + 1 ∧
      t.response = some { status := .ok, data := [] } ∧ t.issued = absorbWords.reverse := by
  obtain ⟨u, hu, uf, uw, um, ui⟩ := absorb_spec (acceptCommand s) (by simpa using hw)
  refine ⟨respond .ok [] u, by rw [execReseed, if_pos hi, hu, andThen_next], by simpa using uw, ?_, ?_, ?_, ?_, ?_, ?_, by simp, ?_⟩
  · simpa using um
  · simpa using uf.next
  · simpa using uf.inited
  · simpa using uf.roms
  · simpa using uf.inputs
  · simpa using uf.epoch
  · simpa using ui

/-- GENBYTE on an initialised CORE with the cursor in range (R165). -/
theorem execGenbyte_spec (s : State) (hw : Memory.wf s.mem) (hi : s.inited = true) (h1 : 16 ≤ s.next.toNat)
    (h2 : s.next.toNat ≤ 256) :
    ∃ y t, execGenbyte s = .next t ∧ Memory.wf t.mem ∧
      (y, blocksOf t.mem, t.next.toNat) = refNextByte s.roms (blocksOf s.mem) s.next.toNat ∧
      t.inited = s.inited ∧ t.roms = s.roms ∧ t.inputs = s.inputs ∧ t.epoch = s.epoch + 1 ∧
      t.response = some { status := .ok, data := [y] } ∧ t.issued = (generateWords 1 s.next.toNat).reverse := by
  obtain ⟨y, u, hu, uf, uw, ub, ui⟩ := nextByte_spec (acceptCommand s) (by simpa using hw) (by simpa using h1) (by simpa using h2)
  refine ⟨y, respond .ok [y] u, by rw [execGenbyte, if_pos hi, hu, andThen_next], by simpa using uw, by simpa using ub,
    ?_, ?_, ?_, ?_, by simp, ?_⟩
  · simpa using uf.inited
  · simpa using uf.roms
  · simpa using uf.inputs
  · simpa using uf.epoch
  · simpa using ui

/-- GENERATE on an initialised CORE with the cursor in range (R166). -/
theorem execGenerate_spec (n : BitVec 28) (s : State) (hw : Memory.wf s.mem) (hi : s.inited = true)
    (h1 : 16 ≤ s.next.toNat) (h2 : s.next.toNat ≤ 256) :
    ∃ t, execGenerate n s = .next t ∧ Memory.wf t.mem ∧
      (blocksOf t.mem, t.next.toNat) = (refGenerate s.roms n.toNat (blocksOf s.mem) s.next.toNat).2 ∧
      t.inited = s.inited ∧ t.roms = s.roms ∧ t.inputs = s.inputs ∧ t.epoch = s.epoch + 1 ∧
      t.response = some { status := .ok, data := (refGenerate s.roms n.toNat (blocksOf s.mem) s.next.toNat).1 } ∧
      t.issued = (generateWords n.toNat s.next.toNat).reverse := by
  obtain ⟨u, hu, u1, u2, _, _, u5, u6, uw, ub, ui⟩ := generateLoop_spec n.toNat [] (setCnt n (acceptCommand s))
    (by simpa using hw) (by simp) (by simpa using h1) (by simpa using h2)
  refine ⟨respond .ok _ u, by rw [execGenerate, if_pos hi, hu, andThen_next], by simpa using uw, by simpa using ub,
    by simpa using u1, by simpa using u2, by simpa using u5, by simpa using u6, by simp, by simpa using ui⟩

end Sys2Proof.Machine
end

