-- ==== Sys2Proof/Laws/Step.lean ====
section
/-! SUPPORT. What a step can do, said once; which instructions each format decodes to; the command words as
numbers. -/

namespace Sys2Proof

theorem opField_toNat (cmd : BitVec 32) : (opField cmd).toNat = cmd.toNat / 2 ^ 28 := by
  have := cmd.isLt
  simp [opField, BitVec.extractLsb'_toNat, Nat.shiftRight_eq_div_pow]
  omega

theorem countField_toNat (cmd : BitVec 32) : (countField cmd).toNat = cmd.toNat % 2 ^ 28 := by
  simp [countField, BitVec.extractLsb'_toNat]

theorem vopField_toNat (vop : BitVec 16) : (vopField vop).toNat = vop.toNat / 2 ^ 14 := by
  have := vop.isLt
  simp [vopField, BitVec.extractLsb'_toNat, Nat.shiftRight_eq_div_pow]
  omega

theorem bufField_toNat (vop : BitVec 16) : (bufField vop).toNat = vop.toNat / 2 ^ 12 % 4 := by
  simp [bufField, BitVec.extractLsb'_toNat, Nat.shiftRight_eq_div_pow]

theorem zeroField_toNat (vop : BitVec 16) : (zeroField vop).toNat = vop.toNat / 2 ^ 8 % 16 := by
  simp [zeroField, BitVec.extractLsb'_toNat, Nat.shiftRight_eq_div_pow]

theorem idxField_toNat (vop : BitVec 16) : (idxField vop).toNat = vop.toNat % 2 ^ 8 := by
  simp [idxField, BitVec.extractLsb'_toNat]

/-- A command word decodes to one of the four host commands (R85). -/
theorem decodeCommand_cases {cmd : BitVec 32} {i : Instr} (h : decodeCommand cmd = .ok i) :
    i = .init ∨ i = .reseed ∨ i = .genbyte ∨ ∃ n, i = .generate n := by
  unfold decodeCommand at h
  split at h
  · injection h with h; simp [← h]
  · split at h
    · injection h with h; simp [← h]
    · split at h
      · injection h with h; simp [← h]
      · split at h
        · injection h with h; simp [← h]
        · cases h

/-- A micro-operation word decodes to one of the five forms of the dispatcher, with its index in range (R89). -/
theorem decodeMicroOp_cases {vop : BitVec 16} {i : Instr} (h : decodeMicroOp vop = .ok i) :
    (∃ n, i = .vloadState n) ∨ (∃ n, i = .vloadSeed n ∧ n.toNat ≤ 14) ∨ (∃ n, i = .vloadRkrom n ∧ n.toNat ≤ 135) ∨
      (∃ n, i = .vstoreState n) ∨ i = .vaesrnd := by
  unfold decodeMicroOp at h
  split at h
  · cases h
  · split at h
    · split at h
      · injection h with h; exact .inl ⟨_, h.symm⟩
      · split at h
        · rename_i hx
          injection h with h
          exact .inr (.inl ⟨_, h.symm, by rw [BitVec.toNat_setWidth]; omega⟩)
        · split at h
          · rename_i hx
            injection h with h
            exact .inr (.inr (.inl ⟨_, h.symm, hx.2⟩))
          · cases h
    · split at h
      · injection h with h; exact .inr (.inr (.inr (.inl ⟨_, h.symm⟩)))
      · split at h
        · injection h with h; exact .inr (.inr (.inr (.inr h.symm)))
        · cases h

namespace Machine

/-- Everything a step that answers a next state has done: nothing, a reset, an instruction put to it as a command
word, an illegal command word, or a micro-operation. -/
theorem step_cases {s t : State} (h : step s = .next t) :
    (s.inputs = [] ∧ t = s) ∨
    (∃ e rest, s.inputs = e :: rest ∧ (e = .reset ∨ ∃ cmd seed, e = .cutCommand cmd seed) ∧
      t = setInputs rest (resetEvent s)) ∨
    (∃ cmd seed rest i, s.inputs = .command cmd seed :: rest ∧ decodeCommand cmd = .ok i ∧
      exec i (presentSeed i seed (setInputs rest s)) = .next t) ∨
    (∃ cmd seed rest, s.inputs = .command cmd seed :: rest ∧ (∃ e, decodeCommand cmd = .error e) ∧
      t = raiseIllegal (setInputs rest s)) ∨
    (∃ vop ports rest i, s.inputs = .issue vop ports :: rest ∧ decodeMicroOp vop = .ok i ∧
      exec i (setPorts ports (setInputs rest s)) = .next t) := by
  unfold step at h
  split at h
  · rename_i hi; injection h with h; exact .inl ⟨hi, h.symm⟩
  · rename_i rest hi; injection h with h; exact .inr (.inl ⟨_, rest, hi, .inl rfl, h.symm⟩)
  · rename_i cmd seed rest hi; injection h with h; exact .inr (.inl ⟨_, rest, hi, .inr ⟨_, _, rfl⟩, h.symm⟩)
  · rename_i cmd seed rest hi
    split at h
    · rename_i i hd; exact .inr (.inr (.inl ⟨cmd, seed, rest, i, hi, hd, h⟩))
    · rename_i e hd; injection h with h; exact .inr (.inr (.inr (.inl ⟨cmd, seed, rest, hi, ⟨e, hd⟩, h.symm⟩)))
  · rename_i vop ports rest hi
    split at h
    · rename_i i hd; exact .inr (.inr (.inr (.inr ⟨vop, ports, rest, i, hi, hd, h⟩)))
    · cases h

/-- RESEED, GENBYTE and GENERATE with INITED = 0 (R191). -/
theorem exec_uninitialised {s : State} {i : Instr} (h : s.inited = false)
    (hi : i = .reseed ∨ i = .genbyte ∨ ∃ n, i = .generate n) :
    exec i s = .next (raise .uninitialised (acceptCommand s)) := by
  rcases hi with rfl | rfl | ⟨n, rfl⟩ <;> simp [exec, execReseed, execGenbyte, execGenerate, h]

/-- The free buffer of a reset event is in canonical form. -/
theorem freeBuffer_wf {s : State} (hw : Memory.wf s.mem) : Memory.wf (freeBuffer s) := by
  have key : ∀ l : List Nat, (∀ b ∈ l, b < 16) → ∀ m, Memory.wf m →
      Memory.wf (l.foldl (fun m b => writeBlock m b (Config.resetBlock s b)) m) := by
    intro l
    induction l with
    | nil => exact fun _ m h => h
    | cons b l ih =>
      exact fun hl m h => ih (fun c hc => hl c (List.mem_cons_of_mem _ hc)) _ (writeBlock_wf h (hl b (by simp)) _)
  exact key _ (by simp) _ hw

/-- The cursor of the reference after any number of bytes. -/
theorem refGenerate_cursor (roms : Roms) (k : Nat) : ∀ (S : Blocks) (n : Nat), 17 ≤ n → n ≤ 256 →
    17 ≤ (refGenerate roms k S n).2.2 ∧ (refGenerate roms k S n).2.2 ≤ 256 := by
  induction k with
  | zero => exact fun S n h1 h2 => ⟨h1, h2⟩
  | succ k ih =>
    intro S n h1 h2
    have := refNextByte_cursor roms S n (by omega) h2
    exact ih _ _ this.1 this.2

end Machine

end Sys2Proof
end

