-- ==== Sys2Proof/Tests/Slice0.lean ====
section
/-! SUPPORT. Tests of single steps against the vectors of spec/95_test_vectors.md (V…, P…), and for every
statement with hypotheses a witness that meets them. -/

namespace Sys2Proof.Tests

open Sys2Proof Sys2Proof.Machine

/-! ### Helpers -/

/-- A block written out, the byte at offset 0 first. -/
def block (bs : List Byte) : Block := Vector.ofFn fun j => bs.getD j.val 0

/-- One field of the next state; none where the operation stops. -/
def field {β : Type} (f : State → β) (o : Host.Outcome State Fault Refusal) : Option β :=
  match o with
  | .next t => some (f t)
  | .fault _ => none
  | .refused _ => none

/-- The reason of a refusal. -/
def refusal {σ : Type} (o : Host.Outcome σ Fault Refusal) : Option Refusal :=
  match o with
  | .next _ => none
  | .fault _ => none
  | .refused r => some r

/-- The toy table `T1` of spec/95_test_vectors.md. -/
def tableT1 (k : Fin 136) : Block := Vector.ofFn fun j => BitVec.ofNat 8 (k.val + 16 * j.val)

/-- The seed with `seed.byte[r] = r`. -/
def countingSeed : Seed := Vector.ofFn fun i => Vector.ofFn fun j => BitVec.ofNat 8 (16 * i.val + j.val)

/-- The seed whose 240 bytes are all `x`. -/
def constSeed (x : Byte) : Seed := Vector.ofFn fun _ => constBlock x

/-- An initialised CORE in the middle of a batch, with `S.byte[i] = i`, `seed.byte[r] = r` and the table `T1`. -/
def counting : State :=
  { State.reset with
    mem := (List.range 255).map fun a => (a + 1, BitVec.ofNat 8 (a + 1))
    roms := romsOf tableT1, seed := countingSeed, inited := true, next := 19 }

/-- The same CORE, Exhausted. -/
def spent : State := setNext 256 counting

/-- An initialised CORE with an all-zero buffer and all-zero round keys (`T0`), Exhausted. -/
def zeroCore : State := { State.reset with roms := romsOf fun _ => constBlock 0, inited := true, next := 256 }

/-! ### Well-formedness -/

theorem test_wf_refuses_seed_block_15 : (Instr.vloadSeed 15).wf = false := by decide

theorem test_wf_refuses_round_key_136 : (Instr.vloadRkrom 136).wf = false ∧ (Instr.vloadRkrom 255).wf = false := by decide

theorem test_wf_admits_the_last_indices :
    (Instr.vloadSeed 14).wf = true ∧ (Instr.vloadRkrom 135).wf = true ∧ (Instr.vloadState 15).wf = true := by decide

/-! ### Decoding: every word written out from the encodings of R82 and R89; P6 and V2.8 -/

theorem test_decode_init : decodeCommand 0b0001_0000000000000000000000000000 = .ok .init := by decide

theorem test_decode_reseed : decodeCommand 0b0010_0000000000000000000000000000 = .ok .reseed := by decide

theorem test_decode_genbyte : decodeCommand 0b0011_0000000000000000000000000000 = .ok .genbyte := by decide

theorem test_decode_generate : decodeCommand 0b0100_0000000000000000000011110000 = .ok (.generate 240) := by decide

theorem test_decode_generate_ends :
    decodeCommand 0x40000000 = .ok (.generate 0) ∧ decodeCommand 0x4FFFFFFF = .ok (.generate 268435455) := by decide

theorem test_decode_vload_state : decodeMicroOp 0b01_00_0000_00000011 = .ok (.vloadState 3) := by decide

theorem test_decode_vload_seed : decodeMicroOp 0b01_01_0000_00001110 = .ok (.vloadSeed 14) := by decide

theorem test_decode_vload_rkrom : decodeMicroOp 0b01_10_0000_10000111 = .ok (.vloadRkrom 135) := by decide

theorem test_decode_vstore_state : decodeMicroOp 0b10_00_0000_00000001 = .ok (.vstoreState 1) := by decide

theorem test_decode_vaesrnd : decodeMicroOp 0b11_00_0000_00000000 = .ok .vaesrnd := by decide

/-- P6: the words listed as illegal. -/
def illegalWords : List (BitVec 32) :=
  [0x00000000, 0x00000001, 0x0FFFFFFF, 0x10000001, 0x1FFFFFFF, 0x20000100, 0x38000000, 0x50000000, 0x80000000,
    0xF0000000, 0xFFFFFFFF]

theorem test_illegal_words :
    illegalWords.map decodeCommand = illegalWords.map fun w => .error (.illegalCommand w) := by decide

/-- V2.8: the words listed as reserved. -/
def reservedWords : List (BitVec 16) := [0x0000, 0x4010, 0x500F, 0x6088, 0x7000, 0x9000, 0xA000, 0xC001, 0x4100]

theorem test_reserved_words :
    reservedWords.map decodeMicroOp = reservedWords.map fun w => .error (.reservedMicroOp w) := by decide

/-- The host's numbering: a row of 16 bits is a micro-operation word, one of 32 bits a command word. -/
theorem test_decode_table_word :
    decodeTableWord 16 0x8001 = some (.vstoreState 1) ∧ decodeTableWord 32 0x400000F1 = some (.generate 241) ∧
    decodeTableWord 16 0x500F = none ∧ decodeTableWord 32 0x10000001 = none := by decide

/-! ### The AES round -/

/-- V2.2. -/
theorem test_sbox_values :
    sbox 0x00 = 0x63 ∧ sbox 0x01 = 0x7C ∧ sbox 0x53 = 0xED ∧ sbox 0x63 = 0xFB ∧ sbox 0x80 = 0xCD ∧ sbox 0xFF = 0x16 := by
  decide

/-- V2.2: no fixed point and no complemented one. -/
theorem test_sbox_moves_every_byte : ∀ x : Byte, sbox x ≠ x ∧ sbox x ≠ x ^^^ 0xFF := by decide +kernel

/-- V2.5. -/
theorem test_field_products :
    xtime 0x57 = 0xAE ∧ xtime 0xAE = 0x47 ∧ xtime 0x47 = 0x8E ∧ xtime 0x8E = 0x07 ∧ xtime3 0x57 = 0xF9 := by decide

/-- V2.1, FIPS 197 Appendix B round 1. -/
theorem test_aes_round_fips_197 :
    aesRound (block [0x19, 0x3d, 0xe3, 0xbe, 0xa0, 0xf4, 0xe2, 0x2b, 0x9a, 0xc6, 0x8d, 0x2a, 0xe9, 0xf8, 0x48, 0x08])
      (block [0xa0, 0xfa, 0xfe, 0x17, 0x88, 0x54, 0x2c, 0xb1, 0x23, 0xa3, 0x39, 0x39, 0x2a, 0x6c, 0x76, 0x05]) =
    block [0xa4, 0x9c, 0x7f, 0xf2, 0x68, 0x9f, 0x35, 0x2b, 0x6b, 0x5b, 0xea, 0x43, 0x02, 0x6a, 0x50, 0x49] := by
  decide +kernel

/-- V2.6h: tells ShiftRows from its inverse. -/
theorem test_aes_round_last_byte :
    aesRound (block [0, 0, 0, 0, 0, 0, 0, 0, 0, 0, 0, 0, 0, 0, 0, 1]) (constBlock 0) =
    block [0x7c, 0x7c, 0x42, 0x5d, 0x63, 0x63, 0x63, 0x63, 0x63, 0x63, 0x63, 0x63, 0x63, 0x63, 0x63, 0x63] := by
  decide +kernel

/-! ### One micro-operation as a step -/

/-- V2.8: `VLOAD STATE[3]` with `S.byte[i] = i`, through the load port at reset (the latch T). -/
theorem test_vload_state :
    field (fun t => t.latches.t) (step (counting.withFetchWord 16 0x4003)) =
      some (block [0x30, 0x31, 0x32, 0x33, 0x34, 0x35, 0x36, 0x37, 0x38, 0x39, 0x3a, 0x3b, 0x3c, 0x3d, 0x3e, 0x3f]) := by
  decide +kernel

/-- R111 with a SNAP entry as destination: the entry named is written, its neighbour is not. -/
theorem test_vload_snap :
    field (fun t => (readSnap 5 t, readSnap 6 t)) (exec (.vloadState 2) (connectLoad (.snap 5) counting)) =
      some (block [0x20, 0x21, 0x22, 0x23, 0x24, 0x25, 0x26, 0x27, 0x28, 0x29, 0x2a, 0x2b, 0x2c, 0x2d, 0x2e, 0x2f],
        constBlock 0) := by decide +kernel

/-- V2.8: `VLOAD SEED[14]` with `seed.byte[r] = r`. -/
theorem test_vload_seed :
    field (fun t => t.latches.t) (step (counting.withFetchWord 16 0x500E)) =
      some (block [0xe0, 0xe1, 0xe2, 0xe3, 0xe4, 0xe5, 0xe6, 0xe7, 0xe8, 0xe9, 0xea, 0xeb, 0xec, 0xed, 0xee, 0xef]) := by
  decide +kernel

/-- V2.8: `VLOAD RKROM[135]` with `T1`. -/
theorem test_vload_rkrom :
    field (fun t => t.latches.t) (step (counting.withFetchWord 16 0x6087)) =
      some (block [0x87, 0x97, 0xa7, 0xb7, 0xc7, 0xd7, 0xe7, 0xf7, 0x07, 0x17, 0x27, 0x37, 0x47, 0x57, 0x67, 0x77]) := by
  decide +kernel

/-- V2.8: `VSTORE STATE[0], v` with `v` sixteen bytes `aa`; byte 16 keeps. -/
theorem test_vstore_state :
    field (fun t => (readBlock t.mem 0, readByte t.mem 16)) (step ((writeLatch .t (constBlock 0xAA) counting).withFetchWord 16 0x8000)) =
      some (constBlock 0xAA, 0x10) := by decide +kernel

/-- R112, R121: the store port carrying the XOR128 of two latches. -/
theorem test_vstore_xor :
    field (fun t => readBlock t.mem 1) (exec (.vstoreState 1)
      (connectStore (.xor .inner .prev) (writeLatch .inner (constBlock 0xF0) (writeLatch .prev (constBlock 0x3C) counting)))) =
      some (constBlock 0xCC) := by decide +kernel

/-- V2.6f: the result latch is also both inputs. -/
theorem test_vaesrnd_in_place :
    field (fun t => t.latches.t) (exec .vaesrnd (writeLatch .t (block [0, 1, 2, 3, 4, 5, 6, 7, 8, 9, 10, 11, 12, 13, 14, 15]) counting)) =
      some (block [0x6a, 0x6b, 0x5e, 0x46, 0x28, 0x68, 0x35, 0x56, 0xb8, 0xd0, 0x57, 0x6a, 0x2b, 0x91, 0x2f, 0x53]) := by
  decide +kernel

/-- V2.6b: the inputs are not exchanged, and the third latch is the one written. -/
theorem test_vaesrnd_ports :
    field (fun t => t.latches.f1) (exec .vaesrnd (connectAes .f1 .even .key
      (writeLatch .key (block [0, 1, 2, 3, 4, 5, 6, 7, 8, 9, 10, 11, 12, 13, 14, 15]) counting))) =
      some (block [0x63, 0x62, 0x61, 0x60, 0x67, 0x66, 0x65, 0x64, 0x6b, 0x6a, 0x69, 0x68, 0x6f, 0x6e, 0x6d, 0x6c]) := by
  decide +kernel

theorem test_reserved_word_is_refused :
    refusal (step (counting.withFetchWord 16 0x500F)) = some (.reservedMicroOp 0x500F) := by decide

/-! ### The permutation engine -/

/-- V3.2, branch 0: `F1`, `F2` and the stored block. -/
theorem test_branch :
    field (fun t => (t.latches.f1, readBlock t.mem 1, t.kp)) (branch 0 (setKp 0 counting)) =
      some (block [0x6a, 0x7a, 0x7c, 0x75, 0x6c, 0x3d, 0x53, 0x21, 0x30, 0x49, 0xfd, 0xd1, 0xe7, 0x4c, 0xc1, 0xac],
        block [0xb8, 0x30, 0x37, 0x5f, 0x1c, 0x26, 0x31, 0x85, 0x86, 0x82, 0x0b, 0xcf, 0x89, 0x34, 0xd3, 0xf3], 1) := by
  decide +kernel

/-- V3.1, one byte per block. -/
theorem test_bshuf :
    field (fun t => (List.range 16).map fun b => readByte t.mem (16 * b))
      (bshuf (setMem ((List.range 15).map fun b => (16 * (b + 1), BitVec.ofNat 8 (b + 1))) counting)) =
      some [0x07, 0x02, 0x0d, 0x04, 0x0b, 0x08, 0x03, 0x06, 0x0f, 0x00, 0x09, 0x0a, 0x01, 0x0e, 0x05, 0x0c] := by
  decide +kernel

/-! ### The host commands -/

/-- R163: INIT zeroes what the buffer held and absorbs the seed: here its last byte alone is not zero. -/
theorem test_init :
    field (fun t => (t.mem, t.next, t.inited))
      (exec .init (setSeed ((constSeed 0).set 14 ((constBlock 0).set 15 0xEF)) (setMem [(3, 7), (40, 9)] counting))) =
      some ([(255, 0xEF)], 256, true) := by decide +kernel

/-- R164: RESEED with 240 bytes `a5` changes an unread byte and a returned one, not the capacity nor NEXT. -/
theorem test_reseed :
    field (fun t => (readByte t.mem 15, readByte t.mem 16, readByte t.mem 19, t.next, t.response))
      (exec .reseed (setSeed (constSeed 0xA5) counting)) =
      some (0x0F, 0xB5, 0xB6, 19, some { status := .ok, data := [] }) := by decide +kernel

/-- R165: the last byte of the buffer leaves NEXT at 256 and runs no permutation. -/
theorem test_genbyte_last_byte :
    field (fun t => (t.response, t.next, t.issued)) (exec .genbyte (setNext 255 counting)) =
      some (some { status := .ok, data := [0xFF] }, 256, []) := by decide +kernel

/-- R166: three bytes, the first produced first. -/
theorem test_generate :
    field (fun t => (t.response, t.next)) (step (counting.withFetchWord 32 0x40000003)) =
      some (some { status := .ok, data := [19, 20, 21] }, 22) := by decide +kernel

/-- P4: `GENERATE 0` when Exhausted runs no REGEN. -/
theorem test_generate_zero :
    field (fun t => (t.response, t.next, t.issued)) (step (spent.withFetchWord 32 0x40000000)) =
      some (some { status := .ok, data := [] }, 256, []) := by decide +kernel

/-- P4: right after reset GENBYTE answers ERR_UNINIT, RESEED and GENERATE 0 too. -/
theorem test_uninitialised :
    ∀ w ∈ [0x30000000, 0x20000000, 0x40000010, 0x40000000],
      field (fun t => t.response) (step (State.reset.withFetchWord 32 w)) =
        some (some { status := .errUninit, data := [] }) := by decide +kernel

/-- P4: illegal words before the INITED test and after it. -/
theorem test_illegal_command :
    (∀ w ∈ [0x00000000, 0x30000001, 0x50000000, 0xFFFFFFFF],
      field (fun t => t.response) (step (State.reset.withFetchWord 32 w)) =
        some (some { status := .errIllegal, data := [] })) ∧
    field (fun t => (t.response, t.next, t.inited)) (step (counting.withFetchWord 32 0x10000001)) =
      some (some { status := .errIllegal, data := [] }, 19, true) := by decide +kernel

/-- R220: the reset event clears INITED and answers nothing. -/
theorem test_reset_event :
    field (fun t => (t.inited, t.response)) (step (setInputs [.reset] counting)) = some (false, none) := by
  decide +kernel

/-! ### Witnesses: concrete states and operands that meet the hypotheses of the statements -/

theorem counting_wf : Memory.wf counting.mem := by
  refine ⟨?_, fun c hc => ?_⟩
  · simp only [counting, List.pairwise_map]
    exact List.pairwise_lt_range.imp fun h => by omega
  · obtain ⟨a, ha, rfl⟩ := List.mem_map.mp hc
    have ha := List.mem_range.mp ha
    refine ⟨by simp only [stateBytes]; omega, fun e => ?_⟩
    have := congrArg BitVec.toNat e
    simp [unlistedByte] at this
    omega

theorem counting_stateInv : stateInv counting := ⟨counting_wf, fun _ => by decide⟩

theorem witness_DecodeOfEncodeIsTheInstruction :
    (Instr.vloadSeed 14).wf = true ∧ (Instr.vloadRkrom 135).wf = true ∧ (Instr.generate 268435455).wf = true := by decide

theorem witness_DecodedWordEncodesBack : decode (.microOp 0x500E) = .ok (.vloadSeed 14) := by decide

theorem witness_CommandWordsDecodeByMatchAndMask :
    decodeCommand 0x10000001 = .error (.illegalCommand 0x10000001) ∧ decodeCommand 0x50000000 = .error (.illegalCommand 0x50000000) := by
  decide

/-- The last word of each form, and the reserved word that follows it: no clause meets another. -/
theorem witness_MicroOpWordsDecodeByMatchAndMask :
    ([0x400F, 0x500E, 0x6087, 0x800F, 0xC000] : List (BitVec 16)).map decodeMicroOp =
      [.ok (.vloadState 15), .ok (.vloadSeed 14), .ok (.vloadRkrom 135), .ok (.vstoreState 15), .ok .vaesrnd] ∧
    ([0x4010, 0x500F, 0x6088, 0x8010, 0xC001, 0x0000] : List (BitVec 16)).map decodeMicroOp =
      [.error (.reservedMicroOp 0x4010), .error (.reservedMicroOp 0x500F), .error (.reservedMicroOp 0x6088),
        .error (.reservedMicroOp 0x8010), .error (.reservedMicroOp 0xC001), .error (.reservedMicroOp 0x0000)] := by
  decide +kernel

theorem witness_StepRunsTheDecodedCommand :
    (counting.withFetchWord 32 0x400000F0).inputs = [.command 0x400000F0 (constSeed 0)] ∧
      decodeCommand 0x400000F0 = .ok (.generate 240) := by decide +kernel

theorem witness_StepRunsTheDecodedMicroOp :
    (counting.withFetchWord 16 0x6087).inputs = [.issue 0x6087 resetPorts] ∧
      decodeMicroOp 0x6087 = .ok (.vloadRkrom 135) := by decide +kernel

theorem witness_IdleStepKeepsTheState : counting.inputs = [] := rfl

/-- Boundary words of each of the three illegal ranges, and that the ranges do not meet. -/
theorem witness_IllegalWordAnswersErrIllegal :
    (setInputs [.command 0x0FFFFFFF (constSeed 1)] counting).inputs = [.command 0x0FFFFFFF (constSeed 1)] ∧
    (0x0FFFFFFF : BitVec 32).toNat / 2 ^ 28 = 0 ∧ 5 ≤ (0x50000000 : BitVec 32).toNat / 2 ^ 28 ∧
    5 ≤ (0xFFFFFFFF : BitVec 32).toNat / 2 ^ 28 ∧
    (1 ≤ (0x10000001 : BitVec 32).toNat / 2 ^ 28 ∧ (0x10000001 : BitVec 32).toNat % 2 ^ 28 ≠ 0) ∧
    ((0x3FFFFFFF : BitVec 32).toNat / 2 ^ 28 ≤ 3 ∧ (0x3FFFFFFF : BitVec 32).toNat % 2 ^ 28 ≠ 0) := by decide +kernel

/-- Words just outside each of the five legal ranges. -/
theorem witness_ReservedMicroOpWordIsRefused :
    (setInputs [.issue 0x4010 resetPorts] counting).inputs = [.issue 0x4010 resetPorts] ∧
    ∀ n ∈ [0x3FFF, 0x4010, 0x500F, 0x6088, 0x7FFF, 0x8010, 0xBFFF, 0xC001, 0xFFFF],
      (BitVec.ofNat 16 n).toNat = n ∧ ¬ (0x4000 ≤ n ∧ n ≤ 0x400F) ∧ ¬ (0x5000 ≤ n ∧ n ≤ 0x500E) ∧
      ¬ (0x6000 ≤ n ∧ n ≤ 0x6087) ∧ ¬ (0x8000 ≤ n ∧ n ≤ 0x800F) ∧ n ≠ 0xC000 := by
  refine ⟨rfl, fun n hn => ?_⟩
  simp only [List.mem_cons, List.not_mem_nil, or_false] at hn
  rw [BitVec.toNat_ofNat]
  omega

theorem witness_CommandsBeforeInitAnswerErrUninit :
    State.reset.inited = false ∧ (Instr.generate 0 = .reseed ∨ Instr.generate 0 = .genbyte ∨ ∃ n, Instr.generate 0 = .generate n) :=
  ⟨rfl, .inr (.inr ⟨0, rfl⟩)⟩

theorem witness_IllegalCommandWinsOverUninitialised :
    State.reset.inited = false ∧ ∀ i, decodeCommand 0x20000001 ≠ .ok i :=
  ⟨rfl, fun i h => by rw [show decodeCommand 0x20000001 = .error (.illegalCommand 0x20000001) by decide] at h; cases h⟩

/-- The three boundary indices of the three buffers. -/
theorem witness_BlockReadAndWrite :
    Memory.wf counting.mem ∧ (15 < 16 ∧ 14 < 15 ∧ 135 < 136) ∧ memRead .seed 15 counting = none ∧ memRead .rkrom 136 counting = none :=
  ⟨counting_wf, by decide, by decide +kernel, by decide +kernel⟩

theorem witness_VloadSeedLoadsItsBlock : (14 : BitVec 4).toNat ≤ 14 := by decide

theorem witness_VloadRkromLoadsItsKey : (135 : BitVec 8).toNat ≤ 135 := by decide

theorem witness_ReservedLoadIndexIsRefused : 135 < (136 : BitVec 8).toNat ∧ 135 < (255 : BitVec 8).toNat := by decide

/-- Addresses on both sides of a stored block. -/
theorem witness_VstoreStoresItsBlockOnly :
    Memory.wf counting.mem ∧ 31 < 16 * (2 : BitVec 4).toNat ∧ 16 * (2 : BitVec 4).toNat + 16 ≤ 48 :=
  ⟨counting_wf, by decide, by decide⟩

theorem witness_StorePortCarriesItsConnection :
    (connectStore (.latch .f2) counting).ports.store = .latch .f2 ∧ (connectStore (.snap 15) counting).ports.store = .snap 15 ∧
      (connectStore (.xor .t .key) counting).ports.store = .xor .t .key := by decide

theorem witness_VaesrndWritesTheRound : Latch.f1 ≠ counting.ports.aesResult := by decide

theorem witness_KnextFetchesTheNextKey :
    (setKp 0 counting).kp.toNat ≤ 135 ∧ (setKp 135 counting).kp.toNat ≤ 135 := by decide

theorem witness_BranchUpdatesTheOddBlock :
    (setKp 135 counting).kp.toNat ≤ 135 ∧ Memory.wf (setKp 135 counting).mem ∧ (14 : BitVec 4).toNat % 2 = 0 :=
  ⟨by decide, counting_wf, by decide⟩

theorem witness_FroundIsTheParallelUpdate :
    Memory.wf (setKp 128 counting).mem ∧ (setKp 128 counting).kp.toNat = 8 * (16 : Fin 17).val := ⟨counting_wf, by decide⟩

theorem witness_BshufGathersFromTheSnapshot : Memory.wf counting.mem := counting_wf

theorem witness_PermuteRefinesTheSeventeenRounds : Memory.wf spent.mem := counting_wf

theorem witness_PermuteIssuesItsFixedWords : Memory.wf zeroCore.mem := by decide

/-- Two states with one buffer and different counters, and a buffer to be reached. -/
theorem witness_PermuteIsBijective :
    Memory.wf spent.mem ∧ Memory.wf (setKp 3 spent).mem ∧ spent.roms = (setKp 3 spent).roms ∧
      spent.roms.shuf = #v[7, 2, 13, 4, 11, 8, 3, 6, 15, 0, 9, 10, 1, 14, 5, 12] ∧
      Memory.wf [(0, (1 : Byte)), (255, 2)] := ⟨counting_wf, counting_wf, rfl, rfl, by decide⟩

/-- For each clause a state at its boundary: the last key for BRANCH, the last round's first key for FROUND, two
states that differ in a counter only, and a buffer to be reached. -/
theorem witness_BranchFroundAndBshufAreInvertible :
    ((setKp 135 counting).kp.toNat ≤ 135 ∧ (14 : BitVec 4).toNat % 2 = 0) ∧
      (setKp 128 counting).kp.toNat ≤ 128 ∧ (setKp 128 counting).kp = (setKp 128 spent).kp ∧
      Memory.wf counting.mem ∧ Memory.wf spent.mem ∧ counting.roms = spent.roms ∧
      counting.roms.shuf = #v[7, 2, 13, 4, 11, 8, 3, 6, 15, 0, 9, 10, 1, 14, 5, 12] ∧
      Memory.wf [(0, (1 : Byte)), (255, 2)] :=
  ⟨by decide, by decide, rfl, counting_wf, counting_wf, rfl, rfl, by decide⟩

theorem witness_AbsorbXorsTheSeedIntoTheRate : Memory.wf counting.mem ∧ (0 < 16 ∧ 15 < 16) ∧ (0 < 240 ∧ 239 < 240) :=
  ⟨counting_wf, by decide, by decide⟩

theorem witness_AbsorbTwiceRestoresTheBuffer : Memory.wf counting.mem := counting_wf

theorem witness_RegenRefinesFeedForward : Memory.wf spent.mem := counting_wf

theorem witness_InitCreatesTheGeneratorState : Memory.wf State.reset.mem := by decide

theorem witness_InitDiscardsTheOldState :
    Memory.wf counting.mem ∧ Memory.wf (setMem [] counting).mem ∧ counting.seed = (setMem [] counting).seed :=
  ⟨counting_wf, by decide, rfl⟩

theorem witness_ReseedAbsorbsTheSeed : Memory.wf counting.mem ∧ counting.inited = true := ⟨counting_wf, rfl⟩

theorem witness_ReseedsCommuteAndCombine :
    Memory.wf counting.mem ∧ counting.inited = true ∧
      ∀ (i : Nat) (hi : i < 15) (j : Nat) (hj : j < 16),
        (constSeed 6)[i][j] = (constSeed 5)[i][j] ^^^ (constSeed 3)[i][j] :=
  ⟨counting_wf, rfl, fun i hi j hj => by simp [constSeed, constBlock]⟩

theorem witness_GenbyteReturnsTheBufferedByte :
    (setNext 255 counting).inited = true ∧ 16 ≤ (setNext 255 counting).next.toNat ∧ (setNext 255 counting).next.toNat < 256 := by
  decide

theorem witness_GenbyteRegeneratesWhenExhausted :
    Memory.wf spent.mem ∧ spent.inited = true ∧ spent.next.toNat = 256 := ⟨counting_wf, rfl, by decide⟩

theorem witness_GenerateRefinesTheByteStream :
    Memory.wf spent.mem ∧ spent.inited = true ∧ 16 ≤ spent.next.toNat ∧ spent.next.toNat ≤ 256 :=
  ⟨counting_wf, rfl, by decide, by decide⟩

theorem witness_GenerateZeroChangesNothing : spent.inited = true := rfl

/-- Both sides of the range of the cursor. -/
theorem witness_CursorOutOfRangeIsRefused :
    (setNext 15 counting).inited = true ∧ (setNext 15 counting).next.toNat < 16 ∧ 256 < (setNext 257 counting).next.toNat ∧
      (1 : BitVec 28) ≠ 0 := by decide

theorem witness_GenerateSplits :
    Memory.wf counting.mem ∧ counting.inited = true ∧ 16 ≤ counting.next.toNat ∧ counting.next.toNat ≤ 256 ∧
      (240 : BitVec 28).toNat + (268435215 : BitVec 28).toNat < 2 ^ 28 := ⟨counting_wf, rfl, by decide, by decide, by decide⟩

theorem witness_PermutationCadence :
    Memory.wf counting.mem ∧
      ∀ c ∈ [(Instr.generate 241, constSeed 0), (.reseed, countingSeed), (.genbyte, constSeed 0)], afterInit c.1 := by
  refine ⟨counting_wf, fun c hc => ?_⟩
  simp only [List.mem_cons, List.not_mem_nil, or_false] at hc
  rcases hc with rfl | rfl | rfl <;> simp [afterInit]

theorem witness_OutputBytesComeFromTheRate :
    Memory.wf spent.mem ∧ spent.inited = true ∧ 16 ≤ spent.next.toNat ∧ spent.next.toNat ≤ 256 :=
  ⟨counting_wf, rfl, by decide, by decide⟩

/-- Two states that differ in the capacity region only, at the last request the batch can serve. -/
theorem witness_CapacityDoesNotReachTheBatch :
    counting.inited = true ∧ (setMem (writeByte counting.mem 3 0xAA) counting).inited = true ∧
      counting.next = (setMem (writeByte counting.mem 3 0xAA) counting).next ∧ 16 ≤ counting.next.toNat ∧
      counting.next.toNat + (237 : BitVec 28).toNat ≤ 256 ∧
      (∀ a, 16 ≤ a → a < 256 → readByte counting.mem a = readByte (writeByte counting.mem 3 0xAA) a) := by
  refine ⟨rfl, rfl, rfl, by decide, by decide, fun a h1 h2 => ?_⟩
  have key : ∀ b : Fin 240, readByte counting.mem (16 + b.val) = readByte (writeByte counting.mem 3 0xAA) (16 + b.val) := by
    decide +kernel
  have := key ⟨a - 16, by omega⟩
  simp only at this
  rwa [show 16 + (a - 16) = a by omega] at this

theorem witness_ReseedShowsInTheUnreadBytes :
    Memory.wf counting.mem ∧ counting.inited = true ∧ 17 ≤ counting.next.toNat ∧ counting.next.toNat ≤ 256 ∧
      counting.next.toNat + (237 : BitVec 28).toNat ≤ 256 := ⟨counting_wf, rfl, by decide, by decide, by decide⟩

theorem witness_RunsDependOnKeysAndCommandsOnly :
    Memory.wf counting.mem ∧ Memory.wf (setMem [] counting).mem ∧ counting.roms = (setMem [] counting).roms :=
  ⟨counting_wf, by decide, rfl⟩

theorem witness_FirstByteAfterInitIsRegenerated : Memory.wf counting.mem := counting_wf

theorem witness_ResetEventClearsInited :
    (setInputs [.reset] counting).inputs = [.reset] ∧
      (setInputs [.cutCommand 0x400000F0 (constSeed 0)] counting).inputs = [.cutCommand 0x400000F0 (constSeed 0)] := ⟨rfl, rfl⟩

/-- A state with the invariant that a host command takes to a next state. -/
theorem witness_StepKeepsTheInvariant :
    stateInv (setInputs [.command 0x30000000 (constSeed 0)] counting) ∧
      ∃ t, step (setInputs [.command 0x30000000 (constSeed 0)] counting) = .next t :=
  ⟨⟨counting_wf, fun _ => by decide⟩, _, rfl⟩

theorem witness_HostCannotStopTheCore :
    stateInv (setInputs [.command 0x30000000 (constSeed 0), .reset] counting) ∧
      hostInputs (setInputs [.command 0x30000000 (constSeed 0), .reset] counting) := by
  refine ⟨⟨counting_wf, fun _ => by decide⟩, fun e he => ?_⟩
  simp only [setInputs, List.mem_cons, List.not_mem_nil, or_false] at he
  rcases he with rfl | rfl <;> exact trivial

theorem witness_RomsNeverChange :
    stateInv (setInputs [.reset] counting) ∧ ∃ t, step (setInputs [.reset] counting) = .next t :=
  ⟨⟨counting_wf, fun _ => by decide⟩, _, rfl⟩

/-- A step that sets INITED and a step that clears it. -/
theorem witness_InitedIsSetByInitAndClearedByReset :
    stateInv (State.reset.withFetchWord 32 0x10000000) ∧ State.reset.inited = false ∧
      field (fun t => t.inited) (step (State.reset.withFetchWord 32 0x10000000)) = some true ∧
      stateInv (setInputs [.reset] counting) ∧ counting.inited = true ∧
      field (fun t => t.inited) (step (setInputs [.reset] counting)) = some false :=
  ⟨⟨by decide, fun h => by cases h⟩, rfl, by decide +kernel, ⟨counting_wf, fun _ => by decide⟩, rfl, by decide +kernel⟩

theorem witness_CapacityChangesOnlyByInitAndPermutation :
    stateInv (counting.withFetchWord 32 0x30000000) ∧
      (counting.withFetchWord 32 0x30000000).inputs = [.command 0x30000000 (constSeed 0)] ∧
      (0x30000000 : BitVec 32) ≠ 0x10000000 ∧
      ∃ t, step (counting.withFetchWord 32 0x30000000) = .next t ∧ t.issued.count 0x6087 = 0 :=
  ⟨⟨counting_wf, fun _ => by decide⟩, by decide +kernel, by decide, _, rfl, by decide +kernel⟩

theorem witness_TraceIsIndependentOfSecrets :
    Memory.wf spent.mem ∧ Memory.wf (setMem [] spent).mem ∧ spent.next = (setMem [] spent).next ∧
      spent.inited = (setMem [] spent).inited := ⟨counting_wf, by decide, rfl, rfl⟩

end Sys2Proof.Tests
end

