-- ==== Sys2Proof/Proofs/StepOutcomes.lean ====
section
/-! SUPPORT. What an instruction that answers a next state has done, said once: for the micro-operations put to the
dispatcher, for the four host commands, and for a whole step. -/

namespace Sys2Proof.Machine

/-! ### The invariant -/

/-- The invariant speaks of S, NEXT and INITED and of nothing else. -/
theorem stateInv_of_eq {s t : State} (hs : stateInv s) (hmem : t.mem = s.mem) (hnext : t.next = s.next)
    (hinited : t.inited = s.inited) : stateInv t := by
  obtain ⟨hwf, hcur⟩ := hs
  refine ⟨hmem ▸ hwf, fun hi => ?_⟩
  rw [hnext]
  exact hcur (hinited ▸ hi)

/-- The state on which a command runs has the invariant of the state in which it was waiting. -/
theorem stateInv_presentSeed {s : State} (hs : stateInv s) (i : Instr) (seed : Seed) (rest : List Event) :
    stateInv (presentSeed i seed (setInputs rest s)) :=
  stateInv_of_eq hs (by simp) (by simp) (by simp)

/-- With INITED = 0 the invariant is the canonical form of the buffer. -/
theorem stateInv_of_uninitialised {t : State} (hwf : Memory.wf t.mem) (hi : t.inited = false) : stateInv t :=
  ⟨hwf, fun h => absurd h (by simp [hi])⟩

/-! ### Micro-operations -/

/-- What a micro-operation can leave: a loaded vector, a stored block, or a written result latch, and its word in the
trace (spec/40_vector_ops.md R111 to R113). -/
inductive DispatchOutcome (s : State) : State → Prop where
  | load (v : Block) (w : BitVec 16) : DispatchOutcome s (writeLoadPort v (recordWord w s))
  | store (b : BitVec 4) (v : Block) (w : BitVec 16) : DispatchOutcome s (memWrite b.toNat v (recordWord w s))
  | aes (l : Latch) (v : Block) (w : BitVec 16) : DispatchOutcome s (writeLatch l v (recordWord w s))

theorem exec_microOp_outcome {s t : State} {vop : BitVec 16} {i : Instr} (hd : decodeMicroOp vop = .ok i)
    (h : exec i s = .next t) : DispatchOutcome s t := by
  rcases decodeMicroOp_cases hd with ⟨n, rfl⟩ | ⟨n, rfl, hn⟩ | ⟨n, rfl, hn⟩ | ⟨n, rfl⟩ | rfl
  · simp only [exec, execVloadState_eq] at h
    cases h
    exact .load _ _
  · simp only [exec, execVloadSeed_eq n s (by omega)] at h
    cases h
    exact .load _ _
  · simp only [exec, execVloadRkrom_eq n s (by omega)] at h
    cases h
    exact .load _ _
  · simp only [exec, execVstoreState_eq] at h
    cases h
    exact .store _ _ _
  · simp only [exec, execVaesrnd_eq] at h
    cases h
    exact .aes _ _ _

/-- A micro-operation has the frame of a routine (R110). -/
theorem DispatchOutcome.routineFrame {s t : State} (h : DispatchOutcome s t) : RoutineFrame s t := by
  cases h <;> constructor <;> simp

theorem DispatchOutcome.wf {s t : State} (h : DispatchOutcome s t) (hwf : Memory.wf s.mem) : Memory.wf t.mem := by
  cases h with
  | load v w => simpa using hwf
  | store b v w => simpa using writeBlock_wf hwf b.isLt v
  | aes l v w => simpa using hwf

theorem DispatchOutcome.stateInv {s t : State} (h : DispatchOutcome s t) (hs : stateInv s) : stateInv t := by
  obtain ⟨hwf, hcur⟩ := hs
  refine ⟨h.wf hwf, fun hi => ?_⟩
  rw [h.routineFrame.next]
  exact hcur (h.routineFrame.inited ▸ hi)

/-! ### Host commands -/

/-- What a host command can leave (spec/42_sponge.md R163 to R166, 60_exceptions.md R191): ERR_UNINIT, the state INIT
creates, an absorbed seed, or `k` bytes read from the stream of the reference. -/
inductive CommandOutcome (s t : State) : Instr → Prop where
  | uninitialised {i : Instr} (raised : t = raise .uninitialised (acceptCommand s)) : CommandOutcome s t i
  | created (wf : Memory.wf t.mem) (next : t.next = 256) (inited : t.inited = true) (roms : t.roms = s.roms) :
      CommandOutcome s t .init
  | reseeded (wf : Memory.wf t.mem) (blocks : blocksOf t.mem = refAbsorb s.seed (blocksOf s.mem))
      (next : t.next = s.next) (inited : t.inited = s.inited) (roms : t.roms = s.roms) : CommandOutcome s t .reseed
  | streamed {i : Instr} (k : Nat) (was : s.inited = true) (wf : Memory.wf t.mem)
      (stream : (blocksOf t.mem, t.next.toNat) = (refGenerate s.roms k (blocksOf s.mem) s.next.toNat).2)
      (inited : t.inited = s.inited) (roms : t.roms = s.roms)
      (issued : t.issued = (generateWords k s.next.toNat).reverse) : CommandOutcome s t i

theorem exec_command_outcome {s t : State} {cmd : BitVec 32} {i : Instr} (hs : stateInv s)
    (hd : decodeCommand cmd = .ok i) (h : exec i s = .next t) : CommandOutcome s t i := by
  obtain ⟨hwf, hcur⟩ := hs
  rcases decodeCommand_cases hd with rfl | hlate
  · obtain ⟨u, hu, wf, -, next, inited, roms, -⟩ := execInit_spec s hwf
    cases hu.symm.trans h
    exact .created wf next inited roms
  cases hi : s.inited with
  | false =>
    cases (exec_uninitialised hi hlate).symm.trans h
    exact .uninitialised rfl
  | true =>
    obtain ⟨hlo, hhi⟩ := hcur hi
    rcases hlate with rfl | rfl | ⟨n, rfl⟩
    · obtain ⟨u, hu, wf, blocks, next, inited, roms, -⟩ := execReseed_spec s hwf hi
      cases hu.symm.trans h
      exact .reseeded wf blocks next inited roms
    · obtain ⟨y, u, hu, wf, byte, inited, roms, -, -, -, issued⟩ := execGenbyte_spec s hwf hi (by omega) hhi
      cases hu.symm.trans h
      exact .streamed 1 hi wf (congrArg Prod.snd byte) inited roms issued
    · obtain ⟨u, hu, wf, stream, inited, roms, -, -, -, issued⟩ := execGenerate_spec n s hwf hi (by omega) hhi
      cases hu.symm.trans h
      exact .streamed n.toNat hi wf stream inited roms issued

theorem CommandOutcome.stateInv {s t : State} {i : Instr} (h : CommandOutcome s t i) (hs : stateInv s) :
    stateInv t := by
  have ⟨_, hcur⟩ := hs
  cases h with
  | uninitialised raised => exact stateInv_of_eq hs (by simp [raised]) (by simp [raised]) (by simp [raised])
  | created wf next => exact ⟨wf, fun _ => by rw [next]; decide⟩
  | reseeded wf _ next inited => exact ⟨wf, fun hi => next ▸ hcur (inited ▸ hi)⟩
  | streamed k was wf stream =>
    obtain ⟨hlo, hhi⟩ := hcur was
    have hend := refGenerate_cursor s.roms k (blocksOf s.mem) _ hlo hhi
    rw [← stream] at hend
    exact ⟨wf, fun _ => hend⟩

theorem CommandOutcome.roms_eq {s t : State} {i : Instr} (h : CommandOutcome s t i) : t.roms = s.roms := by
  cases h with
  | uninitialised raised => simp [raised]
  | created _ _ _ roms => exact roms
  | reseeded _ _ _ _ roms => exact roms
  | streamed _ _ _ _ _ roms => exact roms

/-- INIT alone changes INITED, and it sets it (spec/10_state.md R25). -/
theorem CommandOutcome.inited_cases {s t : State} {i : Instr} (h : CommandOutcome s t i) :
    t.inited = s.inited ∨ (i = .init ∧ t.inited = true) := by
  cases h with
  | uninitialised raised => simp [raised]
  | created _ _ inited => exact .inr ⟨rfl, inited⟩
  | reseeded _ _ _ inited => exact .inl inited
  | streamed _ _ _ _ inited => exact .inl inited

/-! ### The capacity region and the last round key -/

/-- ABSORB keeps the capacity block (spec/42_sponge.md R161). -/
theorem refAbsorb_capacity (seed : Seed) (S : Blocks) : (refAbsorb seed S)[0] = S[0] := by
  simp [refAbsorb]

/-- A permutation loads the last round key: its word stands in round 16, branch 14 (spec/41_permutation.md R142). -/
theorem lastKeyLoad_mem_regenWords : (0x6087 : BitVec 16) ∈ regenWords := by
  have hround : (0x6087 : BitVec 16) ∈ froundWords (8 * (16 : BitVec 5).setWidth 8) :=
    List.mem_flatMap.mpr ⟨14, by decide, by decide⟩
  have hperm : (0x6087 : BitVec 16) ∈ permuteWords :=
    List.mem_flatMap.mpr ⟨16, by decide, List.mem_append_left _ hround⟩
  exact List.mem_append_left _ (List.mem_append_right _ hperm)

/-- Bytes read without a load of the last round key run no permutation and leave the buffer. -/
theorem refGenerate_blocks_of_no_lastKeyLoad (roms : Roms) (k : Nat) (S : Blocks) (n : Nat)
    (h : (0x6087 : BitVec 16) ∉ generateWords k n) : (refGenerate roms k S n).2.1 = S := by
  induction k generalizing n with
  | zero => rfl
  | succ k ih =>
    by_cases hn : n < 256
    · simp only [generateWords, hn, if_true] at h
      simpa [refGenerate, refNextByte, hn] using ih (n + 1) h
    · simp only [generateWords, hn, if_false] at h
      exact absurd (List.mem_append_left _ lastKeyLoad_mem_regenWords) h

/-- A command other than INIT that loads no last round key keeps the capacity block (spec/10_state.md R22). -/
theorem CommandOutcome.capacity {s t : State} {i : Instr} (h : CommandOutcome s t i) (hi : i ≠ .init)
    (hkey : (0x6087 : BitVec 16) ∉ t.issued) : readBlock t.mem 0 = readBlock s.mem 0 := by
  cases h with
  | uninitialised raised => simp [raised]
  | created => exact absurd rfl hi
  | reseeded _ blocks => rw [← blocksOf_getElem _ 0 (by omega), blocks, refAbsorb_capacity, blocksOf_getElem]
  | streamed k _ _ stream _ _ issued =>
    have hwords : (0x6087 : BitVec 16) ∉ generateWords k s.next.toNat := by simpa [issued] using hkey
    have hblocks : blocksOf t.mem = blocksOf s.mem :=
      (congrArg Prod.fst stream).trans (refGenerate_blocks_of_no_lastKeyLoad s.roms k _ _ hwords)
    rw [← blocksOf_getElem t.mem 0 (by omega), hblocks, blocksOf_getElem]

/-! ### Steps -/

/-- INIT has one word (spec/30_encoding.md R85). -/
theorem eq_initWord_of_decode {cmd : BitVec 32} (h : decodeCommand cmd = .ok .init) : cmd = 0x10000000 := by
  unfold decodeCommand at h
  split at h
  · next hf =>
    obtain ⟨hop, hcount⟩ := hf
    have hhigh : cmd.toNat / 2 ^ 28 = 1 := by rw [← opField_toNat, hop]; rfl
    have hlow : cmd.toNat % 2 ^ 28 = 0 := by rw [← countField_toNat, hcount]; rfl
    apply BitVec.eq_of_toNat_eq
    show cmd.toNat = 0x10000000
    omega
  · split_ifs at h <;> cases h

/-- What a step from a state with the invariant can do, each kind with what it leaves. -/
inductive StepOutcome (s t : State) : Prop where
  | idle (ht : t = s)
  | reset (e : Event) (rest : List Event) (hin : s.inputs = e :: rest)
      (he : e = .reset ∨ ∃ cmd seed, e = .cutCommand cmd seed) (ht : t = setInputs rest (resetEvent s))
  | command (cmd : BitVec 32) (seed : Seed) (rest : List Event) (i : Instr)
      (hin : s.inputs = .command cmd seed :: rest) (hd : decodeCommand cmd = .ok i)
      (out : CommandOutcome (presentSeed i seed (setInputs rest s)) t i)
  | illegal (rest : List Event) (ht : t = raiseIllegal (setInputs rest s))
  | microOp (ports : Ports) (rest : List Event) (out : DispatchOutcome (setPorts ports (setInputs rest s)) t)

theorem step_outcome {s t : State} (hs : stateInv s) (h : step s = .next t) : StepOutcome s t := by
  rcases step_cases h with ⟨-, ht⟩ | ⟨e, rest, hin, he, ht⟩ | ⟨cmd, seed, rest, i, hin, hd, hx⟩ |
    ⟨cmd, seed, rest, -, -, ht⟩ | ⟨vop, ports, rest, i, -, hd, hx⟩
  · exact .idle ht
  · exact .reset e rest hin he ht
  · exact .command cmd seed rest i hin hd (exec_command_outcome (stateInv_presentSeed hs i seed rest) hd hx)
  · exact .illegal rest ht
  · exact .microOp ports rest (exec_microOp_outcome hd hx)

/-- What a step on a command word can do: run the command the word decodes to, or answer the illegal word. -/
theorem step_command_cases {s t : State} {cmd : BitVec 32} {seed : Seed} {rest : List Event}
    (hin : s.inputs = .command cmd seed :: rest) (h : step s = .next t) :
    (∃ i, decodeCommand cmd = .ok i ∧ exec i (presentSeed i seed (setInputs rest s)) = .next t) ∨
      t = raiseIllegal (setInputs rest s) := by
  unfold step at h
  rw [hin] at h
  cases hd : decodeCommand cmd with
  | ok i => exact .inl ⟨i, rfl, by simpa [hd] using h⟩
  | error e =>
    simp only [hd] at h
    cases h
    exact .inr rfl

/-- A step keeps INITED, or it took the word of INIT and set it, or it took a reset and cleared it
(spec/10_state.md R25, 70_reset_and_hazards.md R220, R221). -/
theorem step_inited_cases {s t : State} (hs : stateInv s) (h : step s = .next t) :
    t.inited = s.inited ∨
    (t.inited = true ∧ ∃ seed rest, s.inputs = .command 0x10000000 seed :: rest) ∨
    (t.inited = false ∧ ∃ rest, s.inputs = .reset :: rest ∨ ∃ cmd seed, s.inputs = .cutCommand cmd seed :: rest) := by
  cases step_outcome hs h with
  | idle ht => exact .inl (by rw [ht])
  | reset e rest hin he ht =>
    refine .inr (.inr ⟨by simp [ht], rest, ?_⟩)
    rcases he with rfl | ⟨cmd, seed, rfl⟩
    · exact .inl hin
    · exact .inr ⟨cmd, seed, hin⟩
  | command cmd seed rest i hin hd out =>
    rcases out.inited_cases with heq | ⟨rfl, hset⟩
    · exact .inl (by simpa using heq)
    · obtain rfl := eq_initWord_of_decode hd
      exact .inr (.inl ⟨hset, seed, rest, hin⟩)
  | illegal rest ht => exact .inl (by simp [ht])
  | microOp ports rest out => exact .inl (by simpa using out.routineFrame.inited)

end Sys2Proof.Machine
end

