-- ==== Sys2Proof/Proofs/StateFamily.lean ====
section
/-! PROOFS. The statements of spec/10_state.md: the state after reset, the invariant, and what a step may change of the
ROMs, INITED and the capacity region. -/

namespace Sys2Proof.Machine

/-! ### The state after reset -/

/-- Settles O51: the fields of `State.reset`, and the round-key table read back through `romsOf`. -/
theorem resetLeavesTheCoreUninitialised : Obligations.ResetLeavesTheCoreUninitialised := by
  refine ⟨rfl, rfl, rfl, fun k hk => ?_, rfl⟩
  show (Vector.ofFn Config.rkTable)[k] = Config.rkTable ⟨k, hk⟩
  exact Vector.getElem_ofFn hk

/-- Settles O53: nothing is listed at reset and INITED is 0. -/
theorem invariantAtReset : Obligations.InvariantAtReset :=
  stateInv_of_uninitialised Memory.wf_nil rfl

/-! ### What every step keeps -/

/-- Settles O54, by what each kind of step leaves: a reset clears INITED, a command ends with NEXT as R35 says, a
micro-operation writes blocks in canonical form and keeps NEXT. -/
theorem stepKeepsTheInvariant : Obligations.StepKeepsTheInvariant := by
  intro s t hs h
  cases step_outcome hs h with
  | idle ht => exact ht ▸ hs
  | reset e rest hin he ht =>
    obtain ⟨hwf, -⟩ := hs
    exact stateInv_of_uninitialised (by simpa [ht] using freeBuffer_wf hwf) (by simp [ht])
  | command cmd seed rest i hin hd out => exact out.stateInv (stateInv_presentSeed hs i seed rest)
  | illegal rest ht => exact stateInv_of_eq hs (by simp [ht]) (by simp [ht]) (by simp [ht])
  | microOp ports rest out => exact out.stateInv (stateInv_of_eq hs (by simp) (by simp) (by simp))

/-- Settles O56: no kind of step writes the ROMs. -/
theorem romsNeverChange : Obligations.RomsNeverChange := by
  intro s t hs h
  cases step_outcome hs h with
  | idle ht => rw [ht]
  | reset e rest hin he ht => simp [ht]
  | command cmd seed rest i hin hd out => simpa using out.roms_eq
  | illegal rest ht => simp [ht]
  | microOp ports rest out => simpa using out.routineFrame.roms

/-- Settles O57: of the three things a step can do to INITED, only INIT's sets it and only a reset's clears it. -/
theorem initedIsSetByInitAndClearedByReset : Obligations.InitedIsSetByInitAndClearedByReset := by
  intro s t hs h
  rcases step_inited_cases hs h with hkeep | ⟨hset, hinit⟩ | ⟨hclear, hreset⟩
  · exact ⟨fun h0 h1 => absurd (hkeep.symm.trans h1) (by simp [h0]),
      fun h1 h0 => absurd (hkeep.symm.trans h0) (by simp [h1])⟩
  · exact ⟨fun _ _ => hinit, fun _ h0 => absurd h0 (by simp [hset])⟩
  · exact ⟨fun _ h1 => absurd h1 (by simp [hclear]), fun _ _ => hreset⟩

/-- Settles O58: bytes 0 to 15 are block 0, which an illegal word keeps and which a command other than INIT keeps when
it loads no last round key. -/
theorem capacityChangesOnlyByInitAndPermutation : Obligations.CapacityChangesOnlyByInitAndPermutation := by
  intro s t cmd seed rest hs hin h hcmd hcount a ha
  have hblock : readBlock t.mem 0 = readBlock s.mem 0 := by
    rcases step_command_cases hin h with ⟨i, hd, hx⟩ | rfl
    · have hinit : i ≠ .init := by
        rintro rfl
        exact hcmd (eq_initWord_of_decode hd)
      simpa using (exec_command_outcome (stateInv_presentSeed hs i seed rest) hd hx).capacity hinit
        (List.count_eq_zero.mp hcount)
    · simp
  simpa using congrArg (fun v : Block => v[a]) hblock

end Sys2Proof.Machine
end

