-- ==== Sys2Proof/Proofs/MemoryFamily.lean ====
section
/-! PROOFS. The statement of spec/20_memory.md: block access (R51). -/

namespace Sys2Proof.Machine

/-! ### MemRead at an index in range -/

@[simp] theorem memRead_state {idx : Nat} (s : State) (h : idx < 16) :
    memRead .state idx s = some (readBlock s.mem idx) := if_pos h

@[simp] theorem memRead_seed {idx : Nat} (s : State) (h : idx < 15) :
    memRead .seed idx s = some s.seed[idx] := Vector.getElem?_eq_getElem h

@[simp] theorem memRead_rkrom {k : Nat} (s : State) (h : k < 136) :
    memRead .rkrom k s = some s.roms.rk[k] := Vector.getElem?_eq_getElem h

/-- The seed bytes of a block are the bytes of that block of the operand (spec/10_state.md R32). -/
theorem seedByte_block (seed : Seed) {idx j : Nat} (hi : idx < 15) (hj : j < 16) :
    seedByte seed (16 * idx + j) (by omega) = seed[idx][j] := by
  have hblock : (16 * idx + j) / 16 = idx := by omega
  have hoffset : (16 * idx + j) % 16 = j := by omega
  simp only [seedByte, hblock, hoffset]

/-! ### The bytes after MemWrite -/

theorem readByte_memWrite_inside {s : State} (h : Memory.wf s.mem) {idx : Nat} (hi : idx < 16) (v : Block) {j : Nat}
    (hj : j < 16) : readByte (memWrite idx v s).mem (16 * idx + j) = v[j] := by
  rw [memWrite_mem, readByte_writeBlock h hi, dif_pos ⟨by omega, by omega⟩]
  simp only [Nat.add_sub_cancel_left]

theorem readByte_memWrite_outside {s : State} (h : Memory.wf s.mem) {idx : Nat} (hi : idx < 16) (v : Block) {a : Nat}
    (ha : a < 16 * idx ∨ 16 * idx + 16 ≤ a) : readByte (memWrite idx v s).mem a = readByte s.mem a := by
  rw [memWrite_mem, readByte_writeBlock h hi, dif_neg (by omega)]

theorem memRead_state_memWrite {s : State} (h : Memory.wf s.mem) {idx : Nat} (hi : idx < 16) (v : Block) :
    memRead .state idx (memWrite idx v s) = some v := by
  rw [memRead_state _ hi, memWrite_mem, readBlock_writeBlock h hi, if_pos rfl]

/-! ### Block access -/

/-- Settles O14: one case per buffer read, then the bytes inside and outside the block written, and the read back. -/
theorem blockReadAndWrite : Obligations.BlockReadAndWrite := by
  intro s hwf
  refine ⟨fun idx hi => ?state, fun idx hi => ?seed, fun k hk => memRead_rkrom s hk, fun idx v hi => ?write⟩
  case state => exact ⟨_, memRead_state s hi, fun j hj => readBlock_getElem s.mem idx j hj⟩
  case seed => exact ⟨_, memRead_seed s hi, fun j hj => (seedByte_block s.seed hi hj).symm⟩
  case write =>
    exact ⟨fun j hj => readByte_memWrite_inside hwf hi v hj, fun a ha => readByte_memWrite_outside hwf hi v ha,
      memRead_state_memWrite hwf hi v⟩

end Sys2Proof.Machine
end

