-- ==== Sys2Proof/Proofs/EncodingLaws.lean ====
section
/-! SUPPORT. The decoder and the encoder, said once: the words as numbers, the fields a micro-operation word is made of,
when a word decodes to an instruction, what match and mask say of a word, and what the step does with a decoded and with
a rejected word. -/

namespace Sys2Proof

/-! ### Words as numbers (spec/30_encoding.md R82, R89) -/

theorem generateWord_toNat (n : BitVec 28) : (generateWord n).toNat = 0x40000000 + n.toNat := by
  simp [generateWord]
  omega

theorem vloadStateWord_toNat (i : BitVec 4) : (vloadStateWord i).toNat = 0x4000 + i.toNat := by
  simp [vloadStateWord]
  omega

theorem vloadSeedWord_toNat (i : BitVec 4) : (vloadSeedWord i).toNat = 0x5000 + i.toNat := by
  simp [vloadSeedWord]
  omega

theorem vloadRkromWord_toNat (k : BitVec 8) : (vloadRkromWord k).toNat = 0x6000 + k.toNat := by
  simp [vloadRkromWord]
  omega

theorem vstoreStateWord_toNat (i : BitVec 4) : (vstoreStateWord i).toNat = 0x8000 + i.toNat := by
  simp [vstoreStateWord]
  omega

/-! ### Words and their fields (R81, R87) -/

/-- A command word is the number its two fields write. -/
theorem command_fields_iff (cmd : BitVec 32) (op : BitVec 4) (count : BitVec 28) :
    opField cmd = op ∧ countField cmd = count ↔ cmd.toNat = 2 ^ 28 * op.toNat + count.toNat := by
  rw [← BitVec.toNat_inj, ← BitVec.toNat_inj, opField_toNat, countField_toNat]
  omega

/-- A micro-operation word with zero in bits 11 to 8 is the number its other three fields write. -/
theorem microOp_fields_iff (w : BitVec 16) (v b : BitVec 2) (k : BitVec 8) :
    zeroField w = 0 ∧ vopField w = v ∧ bufField w = b ∧ idxField w = k ↔
      w.toNat = 2 ^ 14 * v.toNat + 2 ^ 12 * b.toNat + k.toNat := by
  rw [← BitVec.toNat_inj, ← BitVec.toNat_inj, ← BitVec.toNat_inj, ← BitVec.toNat_inj, zeroField_toNat, vopField_toNat,
    bufField_toNat, idxField_toNat]
  have hzero : (0 : BitVec 4).toNat = 0 := rfl
  omega

/-! ### Decoding a command word (R85) -/

theorem decodeCommand_generateWord (n : BitVec 28) : decodeCommand (generateWord n) = .ok (.generate n) := by
  obtain ⟨hop, hcount⟩ := (command_fields_iff (generateWord n) 4 n).mpr (generateWord_toNat n)
  simp [decodeCommand, hop, hcount]

/-- A command word that decodes is the word of its instruction: the two fields leave no bit out. -/
theorem encode_of_decodeCommand {cmd : BitVec 32} {i : Instr} (h : decodeCommand cmd = .ok i) :
    encode i = .command cmd := by
  have hword := fun op count h => (command_fields_iff cmd op count).mp h
  unfold decodeCommand at h
  split_ifs at h with hinit hreseed hgenbyte hgenerate <;> cases h
  · exact congrArg _ (BitVec.eq_of_toNat_eq (by rw [hword _ _ hinit]; rfl))
  · exact congrArg _ (BitVec.eq_of_toNat_eq (by rw [hword _ _ hreseed]; rfl))
  · exact congrArg _ (BitVec.eq_of_toNat_eq (by rw [hword _ _ hgenbyte]; rfl))
  · exact congrArg _ (BitVec.eq_of_toNat_eq ((generateWord_toNat _).trans (hword _ _ ⟨hgenerate, rfl⟩).symm))

theorem decodeCommand_ok_iff {cmd : BitVec 32} {i : Instr} :
    decodeCommand cmd = .ok i ↔ encode i = .command cmd := by
  refine ⟨encode_of_decodeCommand, fun henc => ?_⟩
  cases i with
  | init => cases henc; decide
  | reseed => cases henc; decide
  | genbyte => cases henc; decide
  | generate n => cases henc; exact decodeCommand_generateWord n
  | vloadState | vloadSeed | vloadRkrom | vstoreState | vaesrnd => cases henc

theorem eq_illegalCommand_of_decode {cmd : BitVec 32} {e : DecodeReject} (h : decodeCommand cmd = .error e) :
    e = .illegalCommand cmd := by
  unfold decodeCommand at h
  split_ifs at h
  cases h
  rfl

/-- A command word is rejected under its own name, and exactly when it decodes to nothing. -/
theorem decodeCommand_error_iff {cmd : BitVec 32} :
    decodeCommand cmd = .error (.illegalCommand cmd) ↔ ∀ i, decodeCommand cmd ≠ .ok i := by
  cases hd : decodeCommand cmd with
  | ok i => simp
  | error e => simp [eq_illegalCommand_of_decode hd]

/-! ### Decoding a micro-operation word (R89) -/

theorem decodeMicroOp_vloadStateWord (i : BitVec 4) : decodeMicroOp (vloadStateWord i) = .ok (.vloadState i) := by
  obtain ⟨hzero, hvop, hbuf, hidx⟩ :=
    (microOp_fields_iff (vloadStateWord i) 1 0 (i.setWidth 8)).mpr (by simp [vloadStateWord_toNat]; omega)
  simp [decodeMicroOp, hzero, hvop, hbuf, hidx]
  omega

theorem decodeMicroOp_vloadSeedWord {i : BitVec 4} (h : i.toNat ≤ 14) :
    decodeMicroOp (vloadSeedWord i) = .ok (.vloadSeed i) := by
  obtain ⟨hzero, hvop, hbuf, hidx⟩ :=
    (microOp_fields_iff (vloadSeedWord i) 1 1 (i.setWidth 8)).mpr (by simp [vloadSeedWord_toNat]; omega)
  simp [decodeMicroOp, hzero, hvop, hbuf, hidx]
  omega

theorem decodeMicroOp_vloadRkromWord {k : BitVec 8} (h : k.toNat ≤ 135) :
    decodeMicroOp (vloadRkromWord k) = .ok (.vloadRkrom k) := by
  obtain ⟨hzero, hvop, hbuf, hidx⟩ :=
    (microOp_fields_iff (vloadRkromWord k) 1 2 k).mpr (by simp [vloadRkromWord_toNat])
  simp [decodeMicroOp, hzero, hvop, hbuf, hidx, h]

theorem decodeMicroOp_vstoreStateWord (i : BitVec 4) : decodeMicroOp (vstoreStateWord i) = .ok (.vstoreState i) := by
  obtain ⟨hzero, hvop, hbuf, hidx⟩ :=
    (microOp_fields_iff (vstoreStateWord i) 2 0 (i.setWidth 8)).mpr (by simp [vstoreStateWord_toNat]; omega)
  simp [decodeMicroOp, hzero, hvop, hbuf, hidx]
  omega

/-- An index that four bits hold loses nothing when it is cut to them. -/
theorem toNat_setWidth_four {k : BitVec 8} (h : k.toNat ≤ 15) : (k.setWidth 4).toNat = k.toNat := by
  rw [BitVec.toNat_setWidth]
  omega

/-- A micro-operation word that decodes is the word of its instruction, with its index in range: bits 11 to 8 are zero
and the other three fields leave no bit out. -/
theorem encode_of_decodeMicroOp {w : BitVec 16} {i : Instr} (h : decodeMicroOp w = .ok i) :
    i.wf = true ∧ encode i = .microOp w := by
  unfold decodeMicroOp at h
  by_cases hzero : zeroField w = 0
  case neg => rw [if_pos hzero] at h; cases h
  rw [if_neg (not_not.mpr hzero)] at h
  have hword := fun v b k h => (microOp_fields_iff w v b k).mp ⟨hzero, h⟩
  split_ifs at h with hload hstate hseed hrkrom hstore haes <;> cases h
  · obtain ⟨hbuf, hidx⟩ := hstate
    refine ⟨rfl, congrArg _ (BitVec.eq_of_toNat_eq ?_)⟩
    rw [vloadStateWord_toNat, toNat_setWidth_four hidx, hword _ _ _ ⟨hload, hbuf, rfl⟩]; rfl
  · obtain ⟨hbuf, hidx⟩ := hseed
    have hi := toNat_setWidth_four (hidx.trans (by omega))
    refine ⟨decide_eq_true (hi ▸ hidx), congrArg _ (BitVec.eq_of_toNat_eq ?_)⟩
    rw [vloadSeedWord_toNat, hi, hword _ _ _ ⟨hload, hbuf, rfl⟩]; rfl
  · obtain ⟨hbuf, hidx⟩ := hrkrom
    refine ⟨decide_eq_true hidx, congrArg _ (BitVec.eq_of_toNat_eq ?_)⟩
    rw [vloadRkromWord_toNat, hword _ _ _ ⟨hload, hbuf, rfl⟩]; rfl
  · obtain ⟨hvop, hbuf, hidx⟩ := hstore
    refine ⟨rfl, congrArg _ (BitVec.eq_of_toNat_eq ?_)⟩
    rw [vstoreStateWord_toNat, toNat_setWidth_four hidx, hword _ _ _ ⟨hvop, hbuf, rfl⟩]; rfl
  · exact ⟨rfl, congrArg _ (BitVec.eq_of_toNat_eq (by rw [hword _ _ _ haes]; rfl))⟩

theorem decodeMicroOp_ok_iff {w : BitVec 16} {i : Instr} :
    decodeMicroOp w = .ok i ↔ i.wf = true ∧ encode i = .microOp w := by
  refine ⟨encode_of_decodeMicroOp, fun ⟨hwf, henc⟩ => ?_⟩
  cases i with
  | vloadState i => cases henc; exact decodeMicroOp_vloadStateWord i
  | vloadSeed i => cases henc; exact decodeMicroOp_vloadSeedWord (of_decide_eq_true hwf)
  | vloadRkrom k => cases henc; exact decodeMicroOp_vloadRkromWord (of_decide_eq_true hwf)
  | vstoreState i => cases henc; exact decodeMicroOp_vstoreStateWord i
  | vaesrnd => cases henc; decide
  | init | reseed | genbyte | generate => cases henc

theorem eq_reservedMicroOp_of_decode {w : BitVec 16} {e : DecodeReject} (h : decodeMicroOp w = .error e) :
    e = .reservedMicroOp w := by
  unfold decodeMicroOp at h
  split_ifs at h <;> cases h <;> rfl

/-- A micro-operation word is rejected under its own name, and exactly when it decodes to nothing. -/
theorem decodeMicroOp_error_iff {w : BitVec 16} :
    decodeMicroOp w = .error (.reservedMicroOp w) ↔ ∀ i, decodeMicroOp w ≠ .ok i := by
  cases hd : decodeMicroOp w with
  | ok i => simp
  | error e => simp [eq_reservedMicroOp_of_decode hd]

/-! ### Decoding a word of either format -/

/-- The encoding puts no condition on the operand of a command. -/
theorem wf_of_encode_command {i : Instr} {cmd : BitVec 32} (h : encode i = .command cmd) : i.wf = true := by
  cases i with
  | init | reseed | genbyte | generate => rfl
  | vloadState | vloadSeed | vloadRkrom | vstoreState | vaesrnd => cases h

/-- A word decodes to the well-formed instruction whose word it is, and to nothing else (R82, R85, R89). -/
theorem decode_ok_iff {w : CodeWord} {i : Instr} : decode w = .ok i ↔ i.wf = true ∧ encode i = w := by
  cases w with
  | command cmd => exact decodeCommand_ok_iff.trans ⟨fun henc => ⟨wf_of_encode_command henc, henc⟩, And.right⟩
  | microOp w => exact decodeMicroOp_ok_iff

/-! ### Match and mask -/

/-- A match word with `n` zero bits below it, and the operand in those `n` bits: the word is their sum. -/
theorem match_and_operand_iff {m n : Nat} (w value : BitVec m) (x : BitVec n) (hvalue : 2 ^ n ∣ value.toNat) :
    (w &&& (BitVec.allOnes m <<< n) = value ∧ x = w.extractLsb' 0 n) ↔ w.toNat = value.toNat + x.toNat := by
  obtain ⟨q, hq⟩ := hvalue
  have hmask : (w &&& (BitVec.allOnes m <<< n)).toNat = 2 ^ n * (w.toNat / 2 ^ n) := by
    have hle : w.toNat / 2 ^ n * 2 ^ n ≤ w.toNat := Nat.div_mul_le_self _ _
    rw [← BitVec.shiftLeft_ushiftRight, BitVec.toNat_shiftLeft, BitVec.toNat_ushiftRight, Nat.shiftRight_eq_div_pow,
      Nat.shiftLeft_eq, Nat.mod_eq_of_lt (by have := w.isLt; omega), Nat.mul_comm]
  have hlow : (w.extractLsb' 0 n).toNat = w.toNat % 2 ^ n := by simp [BitVec.extractLsb'_toNat]
  rw [← BitVec.toNat_inj, ← BitVec.toNat_inj, hmask, hlow, hq]
  constructor
  · rintro ⟨hhigh, hx⟩
    rw [← hhigh, hx, Nat.div_add_mod]
  · intro hsum
    rw [hsum, Nat.mul_add_div (by positivity), Nat.mul_add_mod, Nat.div_eq_of_lt x.isLt, Nat.mod_eq_of_lt x.isLt]
    exact ⟨by simp, rfl⟩

/-- A row whose mask is all ones matches its own word alone. -/
theorem eq_iff_match {m : Nat} {w value : BitVec m} : value = w ↔ w &&& BitVec.allOnes m = value := by
  rw [BitVec.and_allOnes, eq_comm]

theorem generateWord_eq_iff {cmd : BitVec 32} {n : BitVec 28} :
    generateWord n = cmd ↔ cmd &&& 0xF0000000 = 0x40000000 ∧ n = cmd.extractLsb' 0 28 := by
  rw [← BitVec.toNat_inj, generateWord_toNat, eq_comm]
  exact (match_and_operand_iff cmd 0x40000000 n ⟨4, rfl⟩).symm

theorem vloadStateWord_eq_iff {w : BitVec 16} {i : BitVec 4} :
    vloadStateWord i = w ↔ w &&& 0xFFF0 = 0x4000 ∧ i = w.extractLsb' 0 4 := by
  rw [← BitVec.toNat_inj, vloadStateWord_toNat, eq_comm]
  exact (match_and_operand_iff w 0x4000 i ⟨0x400, rfl⟩).symm

theorem vloadSeedWord_eq_iff {w : BitVec 16} {i : BitVec 4} :
    vloadSeedWord i = w ↔ w &&& 0xFFF0 = 0x5000 ∧ i = w.extractLsb' 0 4 := by
  rw [← BitVec.toNat_inj, vloadSeedWord_toNat, eq_comm]
  exact (match_and_operand_iff w 0x5000 i ⟨0x500, rfl⟩).symm

theorem vloadRkromWord_eq_iff {w : BitVec 16} {k : BitVec 8} :
    vloadRkromWord k = w ↔ w &&& 0xFF00 = 0x6000 ∧ k = w.extractLsb' 0 8 := by
  rw [← BitVec.toNat_inj, vloadRkromWord_toNat, eq_comm]
  exact (match_and_operand_iff w 0x6000 k ⟨0x60, rfl⟩).symm

theorem vstoreStateWord_eq_iff {w : BitVec 16} {i : BitVec 4} :
    vstoreStateWord i = w ↔ w &&& 0xFFF0 = 0x8000 ∧ i = w.extractLsb' 0 4 := by
  rw [← BitVec.toNat_inj, vstoreStateWord_toNat, eq_comm]
  exact (match_and_operand_iff w 0x8000 i ⟨0x800, rfl⟩).symm

namespace Machine

/-! ### The step on a decoded and on a rejected word (R84, R85, R89) -/

theorem step_command_of_decode {s : State} {cmd : BitVec 32} {seed : Seed} {rest : List Event} {i : Instr}
    (hin : s.inputs = .command cmd seed :: rest) (hd : decodeCommand cmd = .ok i) :
    step s = exec i (presentSeed i seed (setInputs rest s)) := by
  simp only [step, hin, hd]

theorem step_command_rejected {s : State} {cmd : BitVec 32} {seed : Seed} {rest : List Event}
    (hin : s.inputs = .command cmd seed :: rest) (hd : ∀ i, decodeCommand cmd ≠ .ok i) :
    step s = .next (raiseIllegal (setInputs rest s)) := by
  simp only [step, hin, decodeCommand_error_iff.mpr hd]

theorem step_issue_of_decode {s : State} {w : BitVec 16} {ports : Ports} {rest : List Event} {i : Instr}
    (hin : s.inputs = .issue w ports :: rest) (hd : decodeMicroOp w = .ok i) :
    step s = exec i (setPorts ports (setInputs rest s)) := by
  simp only [step, hin, hd]

theorem step_issue_rejected {s : State} {w : BitVec 16} {ports : Ports} {rest : List Event}
    (hin : s.inputs = .issue w ports :: rest) (hd : ∀ i, decodeMicroOp w ≠ .ok i) :
    step s = .refused (.reservedMicroOp w) := by
  simp only [step, hin, decodeMicroOp_error_iff.mpr hd]

/-- A command put to an idle CORE runs with no event left waiting. -/
theorem presentCommand_of_decode {cmd : BitVec 32} {i : Instr} (hd : decodeCommand cmd = .ok i) (seed : Seed)
    (s : State) : presentCommand cmd seed s = exec i (presentSeed i seed (setInputs [] s)) :=
  step_command_of_decode rfl hd

/-- An illegal word put to an idle CORE is answered with no event left waiting. -/
theorem presentCommand_rejected {cmd : BitVec 32} (hd : ∀ i, decodeCommand cmd ≠ .ok i) (seed : Seed) (s : State) :
    presentCommand cmd seed s = .next (raiseIllegal (setInputs [] s)) :=
  step_command_rejected rfl hd

end Machine

end Sys2Proof
end

