-- ==== Sys2Proof/Proofs/EncodingFamily.lean ====
section
/-! PROOFS. The statements of spec/30_encoding.md: the decoder and the encoder, the match and mask tables, and what the
step does with a word that decodes and with one that does not. -/

namespace Sys2Proof.Machine

/-! ### The round trips -/

/-- Settles O1: `decode_ok_iff` at the word the encoder writes. -/
theorem decodeOfEncodeIsTheInstruction : Obligations.DecodeOfEncodeIsTheInstruction :=
  fun _ hwf => decode_ok_iff.mpr ⟨hwf, rfl⟩

/-- Settles O2, by the other direction of `decode_ok_iff`. -/
theorem decodedWordEncodesBack : Obligations.DecodedWordEncodesBack :=
  fun _ _ h => decode_ok_iff.mp h

/-! ### The match and mask tables (R85, R89) -/

theorem decodeCommand_init_iff (cmd : BitVec 32) :
    decodeCommand cmd = .ok .init ↔ cmd &&& 0xFFFFFFFF = 0x10000000 := by
  rw [decodeCommand_ok_iff, encode, CodeWord.command.injEq]
  exact eq_iff_match

theorem decodeCommand_reseed_iff (cmd : BitVec 32) :
    decodeCommand cmd = .ok .reseed ↔ cmd &&& 0xFFFFFFFF = 0x20000000 := by
  rw [decodeCommand_ok_iff, encode, CodeWord.command.injEq]
  exact eq_iff_match

theorem decodeCommand_genbyte_iff (cmd : BitVec 32) :
    decodeCommand cmd = .ok .genbyte ↔ cmd &&& 0xFFFFFFFF = 0x30000000 := by
  rw [decodeCommand_ok_iff, encode, CodeWord.command.injEq]
  exact eq_iff_match

theorem decodeCommand_generate_iff (cmd : BitVec 32) (n : BitVec 28) :
    decodeCommand cmd = .ok (.generate n) ↔ cmd &&& 0xF0000000 = 0x40000000 ∧ n = cmd.extractLsb' 0 28 := by
  rw [decodeCommand_ok_iff, encode, CodeWord.command.injEq, generateWord_eq_iff]

/-- Settles O3: each row is one instruction's `iff`; a word that matches no row decodes to none of the four commands;
and no word matches two rows, because it decodes to one instruction at most. -/
theorem commandWordsDecodeByMatchAndMask : Obligations.CommandWordsDecodeByMatchAndMask := by
  intro cmd
  have hinit := decodeCommand_init_iff cmd
  have hreseed := decodeCommand_reseed_iff cmd
  have hgenbyte := decodeCommand_genbyte_iff cmd
  have hgenerate := decodeCommand_generate_iff cmd
  refine ⟨hinit, hreseed, hgenbyte, hgenerate, ?rejected, ?response, ?_, ?_, ?_, ?_, ?_, ?_⟩
  case rejected =>
    refine ⟨fun ⟨h1, h2, h3, h4⟩ => decodeCommand_error_iff.mpr fun i hd => ?_, fun herr => ?_⟩
    · rcases decodeCommand_cases hd with rfl | rfl | rfl | ⟨n, rfl⟩
      · exact h1 (hinit.mp hd)
      · exact h2 (hreseed.mp hd)
      · exact h3 (hgenbyte.mp hd)
      · exact h4 ((hgenerate n).mp hd).1
    · have hno := decodeCommand_error_iff.mp herr
      exact ⟨fun h => hno _ (hinit.mpr h), fun h => hno _ (hreseed.mpr h), fun h => hno _ (hgenbyte.mpr h),
        fun h => hno _ ((hgenerate _).mpr ⟨h, rfl⟩)⟩
  case response =>
    exact fun herr seed s => ⟨_, presentCommand_rejected (decodeCommand_error_iff.mp herr) seed s, rfl⟩
  · exact fun ⟨ha, hb⟩ => nomatch (hinit.mpr ha).symm.trans (hreseed.mpr hb)
  · exact fun ⟨ha, hb⟩ => nomatch (hinit.mpr ha).symm.trans (hgenbyte.mpr hb)
  · exact fun ⟨ha, hb⟩ => nomatch (hreseed.mpr ha).symm.trans (hgenbyte.mpr hb)
  · exact fun ⟨ha, hb⟩ => nomatch (hinit.mpr ha).symm.trans ((hgenerate _).mpr ⟨hb, rfl⟩)
  · exact fun ⟨ha, hb⟩ => nomatch (hreseed.mpr ha).symm.trans ((hgenerate _).mpr ⟨hb, rfl⟩)
  · exact fun ⟨ha, hb⟩ => nomatch (hgenbyte.mpr ha).symm.trans ((hgenerate _).mpr ⟨hb, rfl⟩)

theorem decodeMicroOp_vloadState_iff (w : BitVec 16) (i : BitVec 4) :
    decodeMicroOp w = .ok (.vloadState i) ↔ w &&& 0xFFF0 = 0x4000 ∧ i = w.extractLsb' 0 4 := by
  rw [decodeMicroOp_ok_iff, encode, CodeWord.microOp.injEq, vloadStateWord_eq_iff]
  exact and_iff_right rfl

/-- The index condition of R89 in the words of its table: `i` is any index but 15. -/
theorem wf_vloadSeed_iff (i : BitVec 4) : (Instr.vloadSeed i).wf = true ↔ i ≠ 15 := by
  revert i; decide

theorem decodeMicroOp_vloadSeed_iff (w : BitVec 16) (i : BitVec 4) :
    decodeMicroOp w = .ok (.vloadSeed i) ↔ w &&& 0xFFF0 = 0x5000 ∧ i = w.extractLsb' 0 4 ∧ i ≠ 15 := by
  rw [decodeMicroOp_ok_iff, encode, CodeWord.microOp.injEq, vloadSeedWord_eq_iff, wf_vloadSeed_iff, and_comm, and_assoc]

theorem decodeMicroOp_vloadRkrom_iff (w : BitVec 16) (k : BitVec 8) :
    decodeMicroOp w = .ok (.vloadRkrom k) ↔ w &&& 0xFF00 = 0x6000 ∧ k = w.extractLsb' 0 8 ∧ k.toNat ≤ 135 := by
  rw [decodeMicroOp_ok_iff, encode, CodeWord.microOp.injEq, vloadRkromWord_eq_iff, Instr.wf, decide_eq_true_iff, and_comm,
    and_assoc]

theorem decodeMicroOp_vstoreState_iff (w : BitVec 16) (i : BitVec 4) :
    decodeMicroOp w = .ok (.vstoreState i) ↔ w &&& 0xFFF0 = 0x8000 ∧ i = w.extractLsb' 0 4 := by
  rw [decodeMicroOp_ok_iff, encode, CodeWord.microOp.injEq, vstoreStateWord_eq_iff]
  exact and_iff_right rfl

theorem decodeMicroOp_vaesrnd_iff (w : BitVec 16) :
    decodeMicroOp w = .ok .vaesrnd ↔ w &&& 0xFFFF = 0xC000 := by
  rw [decodeMicroOp_ok_iff, encode, CodeWord.microOp.injEq]
  exact (and_iff_right rfl).trans eq_iff_match

/-- Settles O4: each row is one form's `iff`, and a word that meets no row decodes to none of the five forms. -/
theorem microOpWordsDecodeByMatchAndMask : Obligations.MicroOpWordsDecodeByMatchAndMask := by
  intro w
  have hstate := decodeMicroOp_vloadState_iff w
  have hseed := decodeMicroOp_vloadSeed_iff w
  have hrkrom := decodeMicroOp_vloadRkrom_iff w
  have hstore := decodeMicroOp_vstoreState_iff w
  have haes := decodeMicroOp_vaesrnd_iff w
  refine ⟨hstate, hseed, hrkrom, hstore, haes, ⟨fun ⟨h1, h2, h3, h4, h5⟩ => ?rejected, fun herr => ?norow⟩,
    decodeMicroOp_error_iff.symm⟩
  case rejected =>
    refine decodeMicroOp_error_iff.mpr fun i hd => ?_
    rcases decodeMicroOp_cases hd with ⟨n, rfl⟩ | ⟨n, rfl, -⟩ | ⟨k, rfl, -⟩ | ⟨n, rfl⟩ | rfl
    · exact h1 ((hstate n).mp hd).1
    · obtain ⟨hrow, rfl, hn⟩ := (hseed n).mp hd
      exact h2 ⟨hrow, hn⟩
    · obtain ⟨hrow, rfl, hk⟩ := (hrkrom k).mp hd
      exact h3 ⟨hrow, hk⟩
    · exact h4 ((hstore n).mp hd).1
    · exact h5 (haes.mp hd)
  case norow =>
    have hno := decodeMicroOp_error_iff.mp herr
    exact ⟨fun h => hno _ ((hstate _).mpr ⟨h, rfl⟩), fun ⟨h, hi⟩ => hno _ ((hseed _).mpr ⟨h, rfl, hi⟩),
      fun ⟨h, hk⟩ => hno _ ((hrkrom _).mpr ⟨h, rfl, hk⟩), fun h => hno _ ((hstore _).mpr ⟨h, rfl⟩),
      fun h => hno _ (haes.mpr h)⟩

/-! ### Words that are no instruction (R86, R89) -/

/-- The legal command words as numbers: the three fixed words, and the words with operation code 4. -/
theorem legal_command_toNat {cmd : BitVec 32} {i : Instr} (hd : decodeCommand cmd = .ok i) :
    cmd.toNat = 0x10000000 ∨ cmd.toNat = 0x20000000 ∨ cmd.toNat = 0x30000000 ∨ cmd.toNat / 2 ^ 28 = 4 := by
  have henc := encode_of_decodeCommand hd
  rcases decodeCommand_cases hd with rfl | rfl | rfl | ⟨n, rfl⟩ <;> cases henc
  · exact .inl rfl
  · exact .inr (.inl rfl)
  · exact .inr (.inr (.inl rfl))
  · rw [generateWord_toNat]
    omega

/-- Settles O9: no word of the three ranges is a legal word, and an illegal one is answered by `raiseIllegal`. -/
theorem illegalWordAnswersErrIllegal : Obligations.IllegalWordAnswersErrIllegal := by
  intro s cmd seed rest hin hrange
  have hno : ∀ i, decodeCommand cmd ≠ .ok i := fun i hd => by
    have hlegal := legal_command_toNat hd
    omega
  exact ⟨_, step_command_rejected hin hno, by simp, ⟨by simp, by simp, by simp, by simp⟩, by simp, by simp⟩

/-- The legal micro-operation words as numbers: the four ranges, and the word of VAESRND. -/
theorem legal_microOp_toNat {w : BitVec 16} {i : Instr} (hd : decodeMicroOp w = .ok i) :
    (0x4000 ≤ w.toNat ∧ w.toNat ≤ 0x400F) ∨ (0x5000 ≤ w.toNat ∧ w.toNat ≤ 0x500E) ∨
      (0x6000 ≤ w.toNat ∧ w.toNat ≤ 0x6087) ∨ (0x8000 ≤ w.toNat ∧ w.toNat ≤ 0x800F) ∨ w.toNat = 0xC000 := by
  obtain ⟨-, henc⟩ := encode_of_decodeMicroOp hd
  rcases decodeMicroOp_cases hd with ⟨n, rfl⟩ | ⟨n, rfl, hn⟩ | ⟨k, rfl, hk⟩ | ⟨n, rfl⟩ | rfl <;> cases henc
  · rw [vloadStateWord_toNat]; omega
  · rw [vloadSeedWord_toNat]; omega
  · rw [vloadRkromWord_toNat]; omega
  · rw [vstoreStateWord_toNat]; omega
  · exact .inr (.inr (.inr (.inr rfl)))

/-- Settles O10: a word outside the five ranges decodes to no form. -/
theorem reservedMicroOpWordIsRefused : Obligations.ReservedMicroOpWordIsRefused := by
  intro s w ports rest hin hstate hseed hrkrom hstore haes
  refine step_issue_rejected hin fun i hd => ?_
  have hlegal := legal_microOp_toNat hd
  omega

/-- Settles O18: SEED has no block 15 and the round-key ROM no key above 135. -/
theorem reservedLoadIndexIsRefused : Obligations.ReservedLoadIndexIsRefused :=
  ⟨fun s => execVloadSeed_reserved 15 s (by decide), fun k s hk => execVloadRkrom_reserved k s (by omega)⟩

/-! ### Words that are an instruction -/

/-- Settles O5: each word is the word the encoder writes for its well-formed instruction. -/
theorem specWordsDecode : Obligations.SpecWordsDecode := by
  have hword := decodeOfEncodeIsTheInstruction
  exact ⟨hword .init rfl, hword .reseed rfl, hword .genbyte rfl, hword (.generate 240) rfl, hword (.vloadState 3) rfl,
    hword (.vloadSeed 14) rfl, hword (.vloadRkrom 135) rfl, hword (.vstoreState 1) rfl, hword .vaesrnd rfl⟩

/-- Settles O6, by the step's rule for a command word that decodes. -/
theorem stepRunsTheDecodedCommand : Obligations.StepRunsTheDecodedCommand :=
  fun _ _ _ _ _ hin hd => step_command_of_decode hin hd

/-- Settles O7, by the step's rule for a micro-operation word that decodes. -/
theorem stepRunsTheDecodedMicroOp : Obligations.StepRunsTheDecodedMicroOp :=
  fun _ _ _ _ _ hin hd => step_issue_of_decode hin hd

/-- Settles O13: neither GENBYTE nor GENERATE has the operand presented, so both sides run on one state. -/
theorem seedBesideGenbyteAndGenerateIsIgnored : Obligations.SeedBesideGenbyteAndGenerateIsIgnored := by
  intro s seed seed' n
  have hgenbyte : decodeCommand 0x30000000 = .ok .genbyte := decodeCommand_ok_iff.mpr rfl
  have hgenerate : decodeCommand (0x40000000 + n.setWidth 32) = .ok (.generate n) := decodeCommand_generateWord n
  exact ⟨(presentCommand_of_decode hgenbyte seed s).trans (presentCommand_of_decode hgenbyte seed' s).symm,
    (presentCommand_of_decode hgenerate seed s).trans (presentCommand_of_decode hgenerate seed' s).symm⟩

end Sys2Proof.Machine
end

