-- ==== Sys2Proof/Proofs/VectorLaws.lean ====
section
/-! SUPPORT. The vector operations, said once: the AES round column by column, why it is injective in each input, how it
goes with a rotation of the columns, and what a micro-operation delivers and leaves alone. -/

namespace Sys2Proof.Machine

/-! ### The AES matrix, column by column (spec/40_vector_ops.md R114) -/

/-- A vector is its 16 matrix cells. -/
theorem block_eq_of_columns {u v : Block} (h : ∀ c, columnByte u c = columnByte v c) : u = v := by
  ext1 j hj
  have hcell := congrFun (h ⟨j / 4, by omega⟩) ⟨j % 4, by omega⟩
  simpa only [columnByte, Nat.div_add_mod] using hcell

theorem columnByte_ofFn (f : Fin 16 → Byte) (c r : Fin 4) :
    columnByte (Vector.ofFn f) c r = f ⟨4 * c.val + r.val, by omega⟩ := Vector.getElem_ofFn _

/-- There are finitely many vectors, so a map of vectors is a bijection once it is injective. -/
theorem finite_block : Finite Block :=
  Finite.of_injective columnByte fun _ _ h => block_eq_of_columns (congrFun h)

theorem xor128_getElem (x y : Block) (j : Nat) (hj : j < 16) : (xor128 x y)[j] = x[j] ^^^ y[j] :=
  Vector.getElem_ofFn hj

@[simp] theorem columnByte_xor128 (x y : Block) (c r : Fin 4) :
    columnByte (xor128 x y) c r = columnByte x c r ^^^ columnByte y c r := xor128_getElem x y _ _

/-- R115. -/
@[simp] theorem columnByte_subBytes (a : Block) (c r : Fin 4) :
    columnByte (subBytes a) c r = sbox (columnByte a c r) := columnByte_ofFn _ c r

/-- R116: row `r` is rotated left by `r` columns. -/
@[simp] theorem columnByte_shiftRows (t : Block) (c r : Fin 4) :
    columnByte (shiftRows t) c r = columnByte t (c + r) r := by
  have hcol : (4 * c.val + r.val) / 4 = c.val := by omega
  have hrow : (4 * c.val + r.val) % 4 = r.val := by omega
  rw [shiftRows, columnByte_ofFn]
  simp only [columnByte, shiftRowsSource, Fin.getElem_fin, Fin.val_add, hcol, hrow]

/-- MixColumns on one column. -/
def mixColumn (x : Fin 4 → Byte) (r : Fin 4) : Byte := mixRow r.val (x 0) (x 1) (x 2) (x 3)

/-- R117 works on each column by itself. -/
@[simp] theorem columnByte_mixColumns (u : Block) (c : Fin 4) :
    columnByte (mixColumns u) c = mixColumn (columnByte u c) := by
  funext r
  have hcol : (4 * c.val + r.val) / 4 = c.val := by omega
  have hrow : (4 * c.val + r.val) % 4 = r.val := by omega
  rw [mixColumns, columnByte_ofFn]
  simp only [mixColumn, hcol, hrow]

/-! ### The S-box is injective (R115) -/

/-- Where a byte stands in the table of R115. -/
def sboxIndex (y : Byte) : Nat := (sboxRows.flatten.map BitVec.toNat).idxOf y.toNat

theorem sboxIndex_sbox : ∀ x : Byte, sboxIndex (sbox x) = x.toNat := by decide +kernel

theorem sbox_injective : Function.Injective sbox := fun x y h =>
  BitVec.eq_of_toNat_eq (by rw [← sboxIndex_sbox, h, sboxIndex_sbox])

/-! ### The fourth power of MixColumns is the identity (R117) -/

theorem byteXor_left_comm (x y z : Byte) : x ^^^ (y ^^^ z) = y ^^^ (x ^^^ z) := by
  rw [← BitVec.xor_assoc, BitVec.xor_comm x, BitVec.xor_assoc]

@[simp] theorem byteXor_cancel_left (x y : Byte) : x ^^^ (x ^^^ y) = y := by
  rw [← BitVec.xor_assoc, BitVec.xor_self, BitVec.zero_xor]

/-- Doubling: a shift, and the reduction of R117 when the top bit is shifted out. -/
theorem xtime_eq (x : Byte) : xtime x = (x <<< 1) ^^^ (if x.msb then 0x1B else 0) := by
  have hmsb : x.msb = decide (0x80 ≤ x.toNat) := BitVec.msb_eq_decide x
  unfold xtime
  split
  · next hlow => simp [hmsb, Nat.not_le.mpr hlow]
  · next hhigh => simp [hmsb, Nat.not_lt.mp hhigh]

/-- Doubling is additive. -/
theorem xtime_xor (x y : Byte) : xtime (x ^^^ y) = xtime x ^^^ xtime y := by
  simp only [xtime_eq, BitVec.shiftLeft_xor_distrib, BitVec.msb_xor]
  cases x.msb <;> cases y.msb <;> simp [BitVec.xor_assoc, BitVec.xor_comm, byteXor_left_comm]

/-- The sum of the bytes of a column. -/
def columnSum (x : Fin 4 → Byte) : Byte := x 0 ^^^ x 1 ^^^ x 2 ^^^ x 3

/-- Every row of the matrix of R117 in one form: the byte itself, the sum of the column, and twice the sum of the byte and
the next one. -/
theorem mixColumn_eq (x : Fin 4 → Byte) (r : Fin 4) :
    mixColumn x r = x r ^^^ columnSum x ^^^ xtime (x r ^^^ x (r + 1)) := by
  match r with
  | 0 | 1 | 2 | 3 =>
    simp [mixColumn, mixRow, columnSum, xtime3, xtime_xor, BitVec.xor_assoc, BitVec.xor_comm, byteXor_left_comm]

/-- Two neighbours in the product: the sum of the column cancels. -/
theorem mixColumn_xor_next (x : Fin 4 → Byte) (r : Fin 4) :
    mixColumn x r ^^^ mixColumn x (r + 1) = x r ^^^ x (r + 1) ^^^ xtime (x r ^^^ x (r + 2)) := by
  simp [mixColumn_eq, xtime_xor, add_assoc, BitVec.xor_assoc, byteXor_left_comm]

theorem columnSum_mixColumn (x : Fin 4 → Byte) : columnSum (mixColumn x) = columnSum x := by
  have h01 := mixColumn_xor_next x 0
  have h23 := mixColumn_xor_next x 2
  calc columnSum (mixColumn x)
      = (mixColumn x 0 ^^^ mixColumn x 1) ^^^ (mixColumn x 2 ^^^ mixColumn x 3) := by
        simp only [columnSum, BitVec.xor_assoc]
    _ = (x 0 ^^^ x 1 ^^^ xtime (x 0 ^^^ x 2)) ^^^ (x 2 ^^^ x 3 ^^^ xtime (x 2 ^^^ x 0)) := congrArg₂ _ h01 h23
    _ = columnSum x := by
        simp [columnSum, BitVec.xor_assoc, BitVec.xor_comm, byteXor_left_comm]

/-- The square of the matrix: `5 • x r + 4 • x (r + 2)`. -/
theorem mixColumn_mixColumn (x : Fin 4 → Byte) (r : Fin 4) :
    mixColumn (mixColumn x) r = x r ^^^ xtime (xtime (x r ^^^ x (r + 2))) := by
  rw [mixColumn_eq (mixColumn x), mixColumn_xor_next, columnSum_mixColumn, mixColumn_eq, xtime_xor _ (xtime _)]
  simp [BitVec.xor_assoc, BitVec.xor_comm, byteXor_left_comm]

/-- The fourth power of the matrix is the identity: squaring keeps `x r + x (r + 2)`, so the second square adds again
what the first one added. -/
theorem mixColumn_four (x : Fin 4 → Byte) : mixColumn (mixColumn (mixColumn (mixColumn x))) = x := by
  funext r
  have hsum : mixColumn (mixColumn x) r ^^^ mixColumn (mixColumn x) (r + 2) = x r ^^^ x (r + 2) := by
    simp [mixColumn_mixColumn, add_assoc, BitVec.xor_assoc, BitVec.xor_comm]
  rw [mixColumn_mixColumn (mixColumn (mixColumn x)), hsum, mixColumn_mixColumn, BitVec.xor_assoc, BitVec.xor_self,
    BitVec.xor_zero]

theorem mixColumn_injective : Function.Injective mixColumn := fun x y h => by
  rw [← mixColumn_four x, h, mixColumn_four]

/-! ### The round is injective in each input (R119) -/

theorem subBytes_injective : Function.Injective subBytes := fun a b h =>
  block_eq_of_columns fun c => funext fun r => sbox_injective (by
    rw [← columnByte_subBytes, h, columnByte_subBytes])

theorem shiftRows_injective : Function.Injective shiftRows := fun t u h =>
  block_eq_of_columns fun c => funext fun r => by
    have hcell : columnByte t (c - r + r) r = columnByte u (c - r + r) r := by
      rw [← columnByte_shiftRows, h, columnByte_shiftRows]
    rwa [sub_add_cancel] at hcell

theorem mixColumns_injective : Function.Injective mixColumns := fun u v h =>
  block_eq_of_columns fun c => mixColumn_injective (by
    rw [← columnByte_mixColumns, h, columnByte_mixColumns])

theorem xor128_injective_left (k : Block) : Function.Injective fun v => xor128 v k := fun u v h => by
  have hcancel : xor128 (xor128 k u) k = xor128 (xor128 k v) k := by
    rw [xor128_comm k u, xor128_comm k v]
    exact congrArg (fun x => xor128 x k) h
  rwa [xor128_cancel, xor128_cancel] at hcancel

theorem aesRound_injective_state (k : Block) : Function.Injective fun a => aesRound a k :=
  (xor128_injective_left k).comp (mixColumns_injective.comp (shiftRows_injective.comp subBytes_injective))

theorem aesRound_injective_key (a : Block) : Function.Injective fun k => aesRound a k :=
  Function.LeftInverse.injective (g := fun v => xor128 v (aesRound a (constBlock 0))) (aesRound_key a)

/-! ### Rotating the columns (R119) -/

/-- The byte offsets rotated by `4 * n`. -/
def rotateColumns (n : Nat) (v : Block) : Block := Vector.ofFn fun j => v[(j.val + 4 * n) % 16]

@[simp] theorem columnByte_rotateColumns (n : Nat) (v : Block) (c : Fin 4) :
    columnByte (rotateColumns n v) c = columnByte v (c + Fin.ofNat 4 n) := by
  funext r
  have hoffset : (4 * c.val + r.val + 4 * n) % 16 = 4 * ((c.val + n % 4) % 4) + r.val := by omega
  rw [rotateColumns, columnByte_ofFn]
  simp only [columnByte, Fin.val_add, Fin.val_ofNat, hoffset]

theorem subBytes_rotateColumns (n : Nat) (a : Block) : subBytes (rotateColumns n a) = rotateColumns n (subBytes a) :=
  block_eq_of_columns fun c => funext fun r => by simp

/-- The two rotations of a row add up in either order. -/
theorem shiftRows_rotateColumns (n : Nat) (t : Block) : shiftRows (rotateColumns n t) = rotateColumns n (shiftRows t) :=
  block_eq_of_columns fun c => funext fun r => by simp [add_right_comm]

theorem mixColumns_rotateColumns (n : Nat) (u : Block) :
    mixColumns (rotateColumns n u) = rotateColumns n (mixColumns u) :=
  block_eq_of_columns fun c => by simp

theorem xor128_rotateColumns (n : Nat) (x y : Block) :
    xor128 (rotateColumns n x) (rotateColumns n y) = rotateColumns n (xor128 x y) :=
  block_eq_of_columns fun c => funext fun r => by simp

theorem aesRound_rotateColumns (n : Nat) (a k : Block) :
    aesRound (rotateColumns n a) (rotateColumns n k) = rotateColumns n (aesRound a k) := by
  simp only [aesRound, subBytes_rotateColumns, shiftRows_rotateColumns, mixColumns_rotateColumns, xor128_rotateColumns]

/-! ### What a micro-operation delivers and leaves alone (R111 to R113) -/

/-- A load reaches the storage its port is connected to and no other. -/
theorem loadedOnly_writeLoadPort (v : Block) (w : BitVec 16) (s : State) :
    loadedOnly v s (writeLoadPort v (recordWord w s)) := by
  unfold loadedOnly
  split
  · next l hport =>
    rw [writeLoadPort_latch (by simpa using hport)]
    exact ⟨by simp, fun l' hne => by simp [readLatch_writeLatch, hne], by simp⟩
  · next i hport =>
    rw [writeLoadPort_snap (by simpa using hport)]
    exact ⟨by simp [readSnap_writeSnap],
      fun j hne => by rw [readSnap_writeSnap, if_neg hne, readSnap_congr (recordWord_snap w s)], by simp⟩

theorem dispatchFrame_writeLoadPort (v : Block) (w : BitVec 16) (s : State) :
    DispatchFrame s (writeLoadPort v (recordWord w s)) := by
  constructor <;> simp

theorem dispatchFrame_writeLatch (l : Latch) (v : Block) (w : BitVec 16) (s : State) :
    DispatchFrame s (writeLatch l v (recordWord w s)) := by
  constructor <;> simp

/-- Recording the word of a store changes nothing but the trace. -/
theorem dispatchFrame_memWrite (b : Nat) (v : Block) (w : BitVec 16) (s : State) :
    DispatchFrame (memWrite b v s) (memWrite b v (recordWord w s)) := by
  constructor <;> simp

end Sys2Proof.Machine
end

