-- ==== Sys2Proof/Proofs/VectorFamily.lean ====
section
/-! PROOFS. The statements of spec/40_vector_ops.md: the three micro-operations, the store port, and the laws of the AES
round. -/

namespace Sys2Proof.Machine

/-! ### VLOAD and VSTORE (R111, R112) -/

/-- Settles O15: STATE has the block of every index. -/
theorem vloadStateLoadsItsBlock : Obligations.VloadStateLoadsItsBlock := fun i s =>
  ⟨readBlock s.mem i.toNat, _, execVloadState_eq i s, fun j hj => readBlock_getElem s.mem i.toNat j hj,
    loadedOnly_writeLoadPort _ _ s, dispatchFrame_writeLoadPort _ _ s, writeLoadPort_issued _ _⟩

/-- Settles O16: SEED has the blocks 0 to 14. -/
theorem vloadSeedLoadsItsBlock : Obligations.VloadSeedLoadsItsBlock := fun i s hi =>
  have hblock : i.toNat < 15 := by omega
  ⟨s.seed[i.toNat], _, execVloadSeed_eq i s hblock, fun _ hj => (seedByte_block s.seed hblock hj).symm,
    loadedOnly_writeLoadPort _ _ s, dispatchFrame_writeLoadPort _ _ s, writeLoadPort_issued _ _⟩

/-- Settles O17: the ROM has the round keys 0 to 135. -/
theorem vloadRkromLoadsItsKey : Obligations.VloadRkromLoadsItsKey := fun k s hk =>
  ⟨_, execVloadRkrom_eq k s (by omega), loadedOnly_writeLoadPort _ _ s, dispatchFrame_writeLoadPort _ _ s,
    writeLoadPort_issued _ _⟩

/-- Settles O19, by the bytes inside and outside the block MemWrite writes. -/
theorem vstoreStoresItsBlockOnly : Obligations.VstoreStoresItsBlockOnly := by
  intro i s hwf
  refine ⟨_, execVstoreState_eq i s, ?canonical, fun j hj => ?inside, fun a ha => ?outside,
    dispatchFrame_memWrite _ _ _ s, by simp, by simp, by simp, by simp, by simp, by simp, ?word⟩
  case canonical => simpa using writeBlock_wf hwf i.isLt (readStorePort s)
  case inside => exact readByte_memWrite_inside (s := recordWord _ s) hwf i.isLt _ hj
  case outside => exact readByte_memWrite_outside (s := recordWord _ s) hwf i.isLt _ ha
  case word => exact memWrite_issued _ _ _

/-- Settles O20: one case per kind of connection. -/
theorem storePortCarriesItsConnection : Obligations.StorePortCarriesItsConnection := by
  refine fun s => ⟨fun l => readStorePort_latch, fun i => readStorePort_snap, fun x y hport j hj => ?_⟩
  simp only [readStorePort_xor hport, xor128_getElem]

/-! ### VAESRND and the AES round (R113, R119) -/

/-- Settles O21: the two inputs are read from the state before the write. -/
theorem vaesrndWritesTheRound : Obligations.VaesrndWritesTheRound := fun s =>
  ⟨_, execVaesrnd_eq s, readLatch_writeLatch_self _ _ _, fun l hne => by simp [readLatch_writeLatch, hne], by simp,
    dispatchFrame_writeLatch _ _ _ s, writeLatch_issued _ _ _⟩

/-- Settles O22, by `aesRound_eq_xor` at one byte. -/
theorem aesKeyIsXoredLast : Obligations.AesKeyIsXoredLast := by
  intro a k j hj
  simp only [aesRound_eq_xor a k, xor128_getElem]

/-- Settles O23: the round is injective in each input, and there are finitely many vectors. -/
theorem aesRoundIsBijectiveInEachInput : Obligations.AesRoundIsBijectiveInEachInput :=
  have := finite_block
  ⟨fun k => Finite.injective_iff_bijective.mp (aesRound_injective_state k),
    fun a => Finite.injective_iff_bijective.mp (aesRound_injective_key a)⟩

/-- Settles O24: each of the four steps of the round commutes with the rotation. -/
theorem aesRoundCommutesWithColumnRotation : Obligations.AesRoundCommutesWithColumnRotation :=
  aesRound_rotateColumns

end Sys2Proof.Machine
end

