-- ==== Sys2Proof/Proofs/PermutationLaws.lean ====
section
/-! SUPPORT. The routines of the permutation engine as functions on the 16 blocks, why a routine that is a bijection of the
blocks is one of the buffer, and how many words of each kind a routine issues. -/

namespace Sys2Proof.Machine

/-! ### KNEXT and BRANCH (spec/41_permutation.md R141, R143) -/

/-- KNEXT: the key it takes, the latch it fills. -/
theorem knext_spec (s : State) (hk : s.kp.toNat < 136) :
    ∃ t, knext s = .next t ∧ PermuteFrame s t ∧ t.mem = s.mem ∧ t.latches.key = s.roms.rk[s.kp.toNat] ∧
      t.kp = s.kp + 1 := by
  rw [knext, loadRkrom_latch _ _ _ hk, andThen_next]
  exact ⟨_, rfl, .of_fields (by simp) (by simp) (by simp) (by simp) (by simp) (by simp) (by simp) (by simp) (by simp),
    by simp, readLatch_writeLatch_self .key _ _, by simp⟩

/-- KP does not wrap while it points into the ROM. -/
theorem kp_add_one_toNat {k : BitVec 8} (h : k.toNat < 136) : (k + 1).toNat = k.toNat + 1 := by
  bv_omega

/-- The odd block of a branch is the next one. -/
theorem block_add_one_toNat {b : BitVec 4} (h : b.toNat % 2 = 0) : (b + 1).toNat = b.toNat + 1 := by
  bv_omega

/-- BRANCH on an even block: one block write, to the odd block beside it. -/
theorem branch_mem {b : BitVec 4} {s : State} (hb : b.toNat % 2 = 0) (hk : s.kp.toNat < 136) :
    ∃ t, branch b s = .next t ∧ PermuteFrame s t ∧ t.kp.toNat = s.kp.toNat + 1 ∧
      t.mem = writeBlock s.mem (b.toNat + 1)
        (aesRound (aesRound (readBlock s.mem b.toNat) s.roms.rk[s.kp.toNat]) (readBlock s.mem (b.toNat + 1))) := by
  obtain ⟨t, ht, hframe, hmem, hkp, -⟩ := branch_spec b s hk
  rw [block_add_one_toNat hb] at hmem
  exact ⟨t, ht, hframe, by rw [hkp, kp_add_one_toNat hk], hmem⟩

/-! ### FROUND and BSHUF on the blocks (R144, R145) -/

/-- The eight keys of a round that starts at key `k` (R142). -/
def keysFrom (roms : Roms) (k : Nat) (h : k + 8 ≤ 136) (j : Fin 8) : Block := roms.rk[k + j.val]

theorem roundKey_eq_keysFrom (roms : Roms) (r : Fin 17) : roundKey roms r = keysFrom roms (8 * r.val) (by omega) := rfl

/-- FROUND is the reference round with the eight keys from KP on. -/
theorem fround_blocks {s : State} {k : Nat} (hw : Memory.wf s.mem) (hs : s.kp.toNat = k) (hk : k + 8 ≤ 136) :
    ∃ t, fround s = .next t ∧ PermuteFrame s t ∧ Memory.wf t.mem ∧ t.kp.toNat = k + 8 ∧
      blocksOf t.mem = refRound (keysFrom s.roms k hk) (blocksOf s.mem) := by
  subst hs
  obtain ⟨t, ht, hframe, hwf, hblock, hkp, -⟩ := fround_spec s hw hk
  refine ⟨t, ht, hframe, hwf, ?kp, ?blocks⟩
  case kp => bv_omega
  case blocks =>
    ext1 c hc
    rw [blocksOf_getElem, hblock c hc]
    by_cases hodd : c % 2 = 1
    · rw [if_pos hodd, refRound_odd _ _ _ hc (by omega), blocksOf_getElem, blocksOf_getElem]
      rfl
    · rw [if_neg hodd, refRound_even _ _ _ hc (by omega), blocksOf_getElem]

/-! ### Undoing a routine (R150) -/

/-- BRANCH is undone by XORing the odd block with the round of key zero (R150 (a)). -/
theorem branch_undone {b : BitVec 4} {s : State} (hw : Memory.wf s.mem) (hb : b.toNat % 2 = 0) (hk : s.kp.toNat < 136) :
    ∃ t, branch b s = .next t ∧ readBlock s.mem b.toNat = readBlock t.mem b.toNat ∧
      readBlock s.mem (b.toNat + 1) = xor128 (readBlock t.mem (b.toNat + 1))
        (aesRound (aesRound (readBlock t.mem b.toNat) s.roms.rk[s.kp.toNat]) (constBlock 0)) := by
  obtain ⟨t, ht, -, -, hmem⟩ := branch_mem hb hk
  have hread := readBlock_writeBlock hw (b := b.toNat + 1) (by omega)
  have heven : readBlock t.mem b.toNat = readBlock s.mem b.toNat := by rw [hmem, hread, if_neg (by omega)]
  refine ⟨t, ht, heven.symm, ?_⟩
  rw [heven, hmem, hread, if_pos rfl, aesRound_key]

/-- From `s` the routine completes, and it does to the 16 blocks what `f` does. -/
def RunsOnBlocks (routine : State → Result) (f : Blocks → Blocks) (s : State) : Prop :=
  ∃ t, routine s = .next t ∧ Memory.wf t.mem ∧ blocksOf t.mem = f (blocksOf s.mem)

theorem fround_runsOnBlocks {s : State} {k : Nat} (hw : Memory.wf s.mem) (hs : s.kp.toNat = k) (hk : k + 8 ≤ 136) :
    RunsOnBlocks fround (refRound (keysFrom s.roms k hk)) s :=
  let ⟨t, ht, _, hwf, _, hblocks⟩ := fround_blocks hw hs hk
  ⟨t, ht, hwf, hblocks⟩

theorem bshuf_runsOnBlocks {s : State} (hw : Memory.wf s.mem) : RunsOnBlocks bshuf (refShuffle s.roms.shuf) s :=
  let ⟨t, ht, _, hwf, _, hblock, _⟩ := bshuf_spec s hw
  ⟨t, ht, hwf, bshuf_blocks hblock⟩

theorem permute_runsOnBlocks {s : State} (hw : Memory.wf s.mem) : RunsOnBlocks permute (refPermute s.roms) s :=
  let ⟨t, ht, _, hwf, hblocks, _⟩ := permute_spec s hw
  ⟨t, ht, hwf, hblocks⟩

theorem refShuffle_bijective_of_eq {shuf : Vector (BitVec 4) 16} (h : shuf = shufTable) :
    Function.Bijective (refShuffle shuf) := h ▸ refShuffle_bijective

section
variable {routine : State → Result} {f : Blocks → Blocks}

/-- A routine that is injective on the blocks takes different buffers to different buffers. -/
theorem RunsOnBlocks.injective {s s' : State} (h : RunsOnBlocks routine f s) (h' : RunsOnBlocks routine f s')
    (hw : Memory.wf s.mem) (hw' : Memory.wf s'.mem) (hf : Function.Injective f) :
    ∃ t t', routine s = .next t ∧ routine s' = .next t' ∧ (t.mem = t'.mem → s.mem = s'.mem) := by
  obtain ⟨t, ht, -, hblocks⟩ := h
  obtain ⟨t', ht', -, hblocks'⟩ := h'
  refine ⟨t, t', ht, ht', fun hmem => blocksOf_injective hw hw' (hf ?_)⟩
  rw [← hblocks, ← hblocks', hmem]

/-- A routine that is surjective on the blocks reaches every buffer in canonical form. -/
theorem RunsOnBlocks.surjective {s : State} (h : ∀ m', Memory.wf m' → RunsOnBlocks routine f (setMem m' s))
    (hf : Function.Surjective f) {m : Memory} (hw : Memory.wf m) :
    ∃ m' t, Memory.wf m' ∧ routine (setMem m' s) = .next t ∧ t.mem = m := by
  obtain ⟨S, hS⟩ := hf (blocksOf m)
  obtain ⟨m', hw', hm'⟩ := exists_memory_of_blocks S
  obtain ⟨t, ht, hwt, hblocks⟩ := h m' hw'
  refine ⟨m', t, hw', ht, blocksOf_injective hwt hw ?_⟩
  rw [hblocks, setMem_mem, hm', hS]

end

/-! ### Counting the words (R147) -/

/-- The four kinds, read off the word as a number. -/
theorem wordCounts_singleton (w : BitVec 16) :
    wordCounts [w] = (if w.toNat / 256 = 0x60 then 1 else 0, if w.toNat / 16 = 0x400 then 1 else 0,
      if w.toNat = 0xC000 then 1 else 0, if w.toNat / 16 = 0x800 then 1 else 0) := by
  have hlt := w.isLt
  have hbyte : w.toNat / 256 % 256 = w.toNat / 256 := by omega
  have hdigits : w.toNat / 16 % 4096 = w.toNat / 16 := by omega
  simp [wordCounts, List.countP_singleton, ← BitVec.toNat_inj, Nat.shiftRight_eq_div_pow, hbyte, hdigits]

@[simp] theorem wordCounts_vloadStateWord (i : BitVec 4) : wordCounts [vloadStateWord i] = (0, 1, 0, 0) := by
  rw [wordCounts_singleton, vloadStateWord_toNat, if_neg (by omega), if_pos (by omega), if_neg (by omega), if_neg (by omega)]

@[simp] theorem wordCounts_vloadRkromWord (k : BitVec 8) : wordCounts [vloadRkromWord k] = (1, 0, 0, 0) := by
  rw [wordCounts_singleton, vloadRkromWord_toNat, if_pos (by omega), if_neg (by omega), if_neg (by omega), if_neg (by omega)]

@[simp] theorem wordCounts_vstoreStateWord (i : BitVec 4) : wordCounts [vstoreStateWord i] = (0, 0, 0, 1) := by
  rw [wordCounts_singleton, vstoreStateWord_toNat, if_neg (by omega), if_neg (by omega), if_neg (by omega), if_pos (by omega)]

@[simp] theorem wordCounts_vaesrndWord : wordCounts [vaesrndWord] = (0, 0, 1, 0) := by decide

theorem wordCounts_append (ws vs : List (BitVec 16)) : wordCounts (ws ++ vs) = wordCounts ws + wordCounts vs := by
  simp [wordCounts]

theorem wordCounts_cons (w : BitVec 16) (ws : List (BitVec 16)) :
    wordCounts (w :: ws) = wordCounts [w] + wordCounts ws := wordCounts_append [w] ws

/-- A loop whose passes all issue the same number of words of each kind. -/
theorem wordCounts_flatMap {α : Type} {f : α → List (BitVec 16)} {c : Nat × Nat × Nat × Nat}
    (h : ∀ x, wordCounts (f x) = c) (l : List α) : wordCounts (l.flatMap f) = l.length • c := by
  induction l with
  | nil => simp [wordCounts]
  | cons x l ih => rw [List.flatMap_cons, wordCounts_append, h, ih, List.length_cons, succ_nsmul']

theorem wordCounts_map {α : Type} {f : α → BitVec 16} {c : Nat × Nat × Nat × Nat} (h : ∀ x, wordCounts [f x] = c)
    (l : List α) : wordCounts (l.map f) = l.length • c := by
  rw [List.map_eq_flatMap, wordCounts_flatMap h]

theorem wordCounts_branchWords (b : BitVec 4) (k : BitVec 8) : wordCounts (branchWords b k) = (1, 2, 2, 1) := by
  rw [branchWords, wordCounts_cons, wordCounts_cons (vloadStateWord (b + 1)), wordCounts_cons (vloadRkromWord k),
    wordCounts_cons vaesrndWord [vaesrndWord, _], wordCounts_cons vaesrndWord [_]]
  simp

theorem wordCounts_froundWords (k : BitVec 8) : wordCounts (froundWords k) = (8, 16, 16, 8) :=
  wordCounts_flatMap (fun b => wordCounts_branchWords b _) evenIndices

theorem wordCounts_bshufWords : wordCounts bshufWords = (0, 16, 0, 16) := by
  rw [bshufWords, wordCounts_append, wordCounts_map wordCounts_vloadStateWord, wordCounts_map wordCounts_vstoreStateWord]
  rfl

theorem wordCounts_permuteWords : wordCounts permuteWords = (136, 544, 272, 408) := by
  refine wordCounts_flatMap (c := (8, 32, 16, 24)) (fun r => ?_) roundNumbers
  rw [wordCounts_append, wordCounts_froundWords, wordCounts_bshufWords]
  rfl

theorem froundWords_length (k : BitVec 8) : (froundWords k).length = 48 := by
  simp [froundWords, branchWords, evenIndices]

theorem bshufWords_length : bshufWords.length = 32 := rfl

theorem permuteWords_length : permuteWords.length = 1360 := by
  simp [permuteWords, froundWords_length, bshufWords_length, roundNumbers]

end Sys2Proof.Machine
end

