-- ==== Sys2Proof/Proofs/PermutationFamily.lean ====
section
/-! PROOFS. The statements of spec/41_permutation.md: what KNEXT, BRANCH, FROUND, BSHUF and PERMUTE do to the blocks, the
words PERMUTE issues, and why each of them can be undone (R150). -/

namespace Sys2Proof.Machine

/-! ### What the routines do (R141 to R146) -/

/-- Settles O25: the ROM has the key at KP, and KP does not wrap. -/
theorem knextFetchesTheNextKey : Obligations.KnextFetchesTheNextKey := by
  intro s hk
  have hrom : s.kp.toNat < 136 := by omega
  obtain ⟨t, ht, hframe, hmem, hkey, hkp⟩ := knext_spec s hrom
  exact ⟨t, ht, hkey, by rw [hkp, kp_add_one_toNat hrom], hmem, hframe⟩

/-- Settles O26: BRANCH is one block write, read back inside and outside the block. -/
theorem branchUpdatesTheOddBlock : Obligations.BranchUpdatesTheOddBlock := by
  intro b s hk hwf hb
  have hodd : b.toNat + 1 < 16 := by omega
  obtain ⟨t, ht, hframe, hkp, hmem⟩ := branch_mem hb (s := s) (by omega)
  refine ⟨t, ht, hframe, hkp, ?block, fun a ha => ?other⟩
  case block => rw [hmem, readBlock_writeBlock hwf hodd, if_pos rfl]
  case other => rw [hmem, readByte_writeBlock hwf hodd, dif_neg (by omega)]

/-- Settles O27: the eight keys from KP = 8 * r on are those of round r. -/
theorem froundIsTheParallelUpdate : Obligations.FroundIsTheParallelUpdate := by
  intro s r hwf hkp
  obtain ⟨t, ht, hframe, -, hkp', hblocks⟩ := fround_blocks hwf hkp (by omega)
  exact ⟨t, ht, hframe, hkp', by rw [hblocks, roundKey_eq_keysFrom]⟩

/-- Settles O28. -/
theorem bshufGathersFromTheSnapshot : Obligations.BshufGathersFromTheSnapshot := by
  intro s hwf
  obtain ⟨t, ht, hframe, -, hkp, hblock, -⟩ := bshuf_spec s hwf
  exact ⟨t, ht, hframe, hkp, bshuf_blocks hblock⟩

/-- Settles O29, by the induction over the rounds in `permute_spec`. -/
theorem permuteRefinesTheSeventeenRounds : Obligations.PermuteRefinesTheSeventeenRounds := by
  intro s hwf
  obtain ⟨t, ht, hframe, hwf', hblocks, hkp, -⟩ := permute_spec s hwf
  exact ⟨t, ht, hframe, hwf', hkp, hblocks⟩

/-! ### The words of PERMUTE (R147) -/

/-- Settles O30: the trace by `permute_spec`, the counts from those of one branch update and one block move. -/
theorem permuteIssuesItsFixedWords : Obligations.PermuteIssuesItsFixedWords := by
  refine ⟨fun s hwf => ?trace, rfl, fun r _ => wordCounts_froundWords _, wordCounts_bshufWords, wordCounts_permuteWords,
    rfl, permuteWords_length⟩
  obtain ⟨t, ht, -, -, -, -, hissued⟩ := permute_spec s hwf
  exact ⟨t, ht, hissued⟩

/-! ### The inverses (R150) -/

/-- Settles O31: the reference permutation is a bijection of the blocks, and the blocks are the buffer. -/
theorem permuteIsBijective : Obligations.PermuteIsBijective := by
  refine ⟨fun s s' hwf hwf' hroms hshuf => ?injective, fun s m hwf hshuf => ?surjective⟩
  case injective =>
    have hrun' := permute_runsOnBlocks hwf'
    rw [← hroms] at hrun'
    exact (permute_runsOnBlocks hwf).injective hrun' hwf hwf' (refPermute_bijective s.roms hshuf).injective
  case surjective =>
    exact RunsOnBlocks.surjective (f := refPermute s.roms) (fun _ hw => permute_runsOnBlocks hw)
      (refPermute_bijective s.roms hshuf).surjective hwf

/-- Settles O60: BRANCH by the last key XOR, FROUND and BSHUF by their bijections of the blocks. -/
theorem branchFroundAndBshufAreInvertible : Obligations.BranchFroundAndBshufAreInvertible := by
  refine ⟨fun b s hk hwf hb => branch_undone hwf hb (by omega), fun s s' hwf hwf' hroms hkp hk => ?froundInjective,
    fun s m hwf hk => ?froundSurjective, fun s s' hwf hwf' hroms hshuf => ?bshufInjective,
    fun s m hwf hshuf => ?bshufSurjective⟩
  case froundInjective =>
    have hrun' := fround_runsOnBlocks hwf' (congrArg BitVec.toNat hkp.symm) (by omega)
    rw [← hroms] at hrun'
    exact (fround_runsOnBlocks hwf rfl (by omega)).injective hrun' hwf hwf' (refRound_bijective _).injective
  case froundSurjective =>
    exact RunsOnBlocks.surjective (f := refRound (keysFrom s.roms s.kp.toNat (by omega)))
      (fun _ hw => fround_runsOnBlocks hw rfl _) (refRound_bijective _).surjective hwf
  case bshufInjective =>
    have hrun' := bshuf_runsOnBlocks hwf'
    rw [← hroms] at hrun'
    exact (bshuf_runsOnBlocks hwf).injective hrun' hwf hwf' (refShuffle_bijective_of_eq hshuf).injective
  case bshufSurjective =>
    exact RunsOnBlocks.surjective (f := refShuffle s.roms.shuf) (fun _ hw => bshuf_runsOnBlocks hw)
      (refShuffle_bijective_of_eq hshuf).surjective hwf

end Sys2Proof.Machine
end

