-- ==== Sys2Proof/Proofs/SpongeLaws.lean ====
section
/-! SUPPORT. The sponge, said once: ABSORB byte by byte and as an action of the seeds, the words of ABSORB and REGEN, the
bytes a batch can serve, the bytes read from the reference stream, the cadence of the permutations, and two runs from
states that agree. -/

namespace Sys2Proof.Machine

/-! ### ABSORB on the blocks and on the bytes (spec/42_sponge.md R161) -/

/-- Rate block `c` is XORed with its seed block. -/
theorem refAbsorb_rate (seed : Seed) (S : Blocks) (c : Nat) (hc : c < 15) :
    (refAbsorb seed S)[c + 1] = xor128 S[c + 1] seed[c] := by
  simp [refAbsorb]

/-- The 16 blocks are the capacity block and the 15 rate blocks. -/
theorem blocks_ext {S T : Blocks} (capacity : S[0] = T[0]) (rate : ∀ c (_ : c < 15), S[c + 1] = T[c + 1]) : S = T := by
  ext1 c hc
  cases c with
  | zero => exact capacity
  | succ c => exact rate c (by omega)

/-- A byte of the buffer is a byte of its block (spec/20_memory.md R53). -/
theorem readByte_eq_readBlock (m : Memory) (a : Nat) :
    readByte m a = (readBlock m (a / 16))[a % 16]'(Nat.mod_lt _ (by omega)) := by
  rw [readBlock_getElem, Nat.div_add_mod]

section
variable {seed : Seed} {m m' : Memory}

theorem readByte_absorbed_capacity (h : blocksOf m' = refAbsorb seed (blocksOf m)) {a : Nat} (ha : a < 16) :
    readByte m' a = readByte m a := by
  have hblock : readBlock m' 0 = readBlock m 0 := by
    rw [← blocksOf_getElem m' 0 (by omega), h, refAbsorb_capacity, blocksOf_getElem]
  have hzero : a / 16 = 0 := by omega
  simp only [readByte_eq_readBlock _ a, hzero, hblock]

theorem readByte_absorbed_rate (h : blocksOf m' = refAbsorb seed (blocksOf m)) {r : Nat} (hr : r < 240) :
    readByte m' (16 + r) = readByte m (16 + r) ^^^ seedByte seed r hr := by
  have hblock : readBlock m' (r / 16 + 1) = xor128 (readBlock m (r / 16 + 1)) seed[r / 16] := by
    rw [← blocksOf_getElem m' _ (by omega), h, refAbsorb_rate seed _ _ (by omega), blocksOf_getElem]
  have hindex : (16 + r) / 16 = r / 16 + 1 := by omega
  have hoffset : (16 + r) % 16 = r % 16 := by omega
  simp only [readByte_eq_readBlock _ (16 + r), hindex, hoffset, hblock, xor128_getElem, seedByte]

end

/-! ### Seeds act on the buffer by XOR (R161, R164) -/

/-- The XOR of two seeds, block by block. -/
def xorSeed (x y : Seed) : Seed := Vector.ofFn fun i => xor128 x[i] y[i]

theorem xorSeed_getElem (x y : Seed) (i : Nat) (hi : i < 15) : (xorSeed x y)[i] = xor128 x[i] y[i] :=
  Vector.getElem_ofFn hi

theorem xorSeed_comm (x y : Seed) : xorSeed x y = xorSeed y x := by
  ext1 i hi
  rw [xorSeed_getElem, xorSeed_getElem, xor128_comm]

/-- A seed is the XOR of two others when its bytes are. -/
theorem eq_xorSeed_of_bytes {x y z : Seed}
    (h : ∀ (i : Nat) (hi : i < 15) (j : Nat) (hj : j < 16), z[i][j] = x[i][j] ^^^ y[i][j]) : z = xorSeed x y := by
  ext i hi j hj : 2
  rw [h i hi j hj, xorSeed_getElem, xor128_getElem]

theorem xor128_assoc (x y z : Block) : xor128 (xor128 x y) z = xor128 x (xor128 y z) := by
  ext1 j hj
  simp only [xor128_getElem, BitVec.xor_assoc]

theorem xor128_cancel_right (x y : Block) : xor128 (xor128 x y) y = x := by
  rw [xor128_comm x, xor128_cancel]

/-- Two absorbed seeds are one, their XOR. -/
theorem refAbsorb_refAbsorb (x y : Seed) (S : Blocks) : refAbsorb y (refAbsorb x S) = refAbsorb (xorSeed x y) S := by
  refine blocks_ext ?capacity fun c hc => ?rate
  case capacity => rw [refAbsorb_capacity, refAbsorb_capacity, refAbsorb_capacity]
  case rate => rw [refAbsorb_rate _ _ c hc, refAbsorb_rate _ _ c hc, refAbsorb_rate _ _ c hc, xorSeed_getElem, xor128_assoc]

/-- A seed absorbed twice is gone. -/
theorem refAbsorb_self_cancel (x : Seed) (S : Blocks) : refAbsorb x (refAbsorb x S) = S := by
  refine blocks_ext ?capacity fun c hc => ?rate
  case capacity => rw [refAbsorb_capacity, refAbsorb_capacity]
  case rate => rw [refAbsorb_rate _ _ c hc, refAbsorb_rate _ _ c hc, xor128_cancel_right]

/-- RESEED with the operand `x` on an initialised CORE absorbs `x` and moves no cursor (R164). -/
theorem exec_reseed_absorbs (x : Seed) {s : State} (hw : Memory.wf s.mem) (hi : s.inited = true) :
    ∃ t, exec .reseed (presentSeed .reseed x s) = .next t ∧ Memory.wf t.mem ∧ t.inited = true ∧
      blocksOf t.mem = refAbsorb x (blocksOf s.mem) ∧ t.next = s.next := by
  obtain ⟨t, ht, hwf, hblocks, hnext, hinited, -⟩ := execReseed_spec (presentSeed .reseed x s) hw hi
  exact ⟨t, ht, hwf, hinited.trans hi, hblocks, hnext⟩

/-! ### The words of ABSORB and REGEN (R161, R162) -/

theorem absorbWords_length : absorbWords.length = 45 := rfl

/-- ABSORB loads no round key. -/
theorem absorbWords_count_lastKey : absorbWords.count 0x6087 = 0 := by decide

theorem regenWords_length : regenWords.length = 1363 := by
  simp [regenWords, permuteWords_length]

/-- The one word of a branch update that can load the last round key is its key load. -/
theorem branchWords_count_lastKey (b : BitVec 4) (k : BitVec 8) :
    (branchWords b k).count 0x6087 = if k = 135 then 1 else 0 := by
  have hload (i : BitVec 4) : vloadStateWord i ≠ 0x6087 := by revert i; decide
  have hstore (i : BitVec 4) : vstoreStateWord i ≠ 0x6087 := by revert i; decide
  have haes : vaesrndWord ≠ 0x6087 := by decide
  have hkey : vloadRkromWord k = 0x6087 ↔ k = 135 := by
    rw [← BitVec.toNat_inj, ← BitVec.toNat_inj, vloadRkromWord_toNat]
    show 0x6000 + k.toNat = 0x6087 ↔ k.toNat = 135
    omega
  simp only [branchWords, List.count_cons, List.count_nil, beq_iff_eq, hload, hstore, haes, hkey, if_false, Nat.zero_add,
    Nat.add_zero]

/-- A permutation loads the last round key once, in round 16 at branch 14 (spec/41_permutation.md R142). -/
theorem permuteWords_count_lastKey : permuteWords.count 0x6087 = 1 := by
  have hshuffle : bshufWords.count 0x6087 = 0 := by decide
  simp only [permuteWords, froundWords, List.count_flatMap, Function.comp_def, List.count_append, hshuffle,
    branchWords_count_lastKey]
  decide

theorem regenWords_count_lastKey : regenWords.count 0x6087 = 1 := by
  rw [regenWords, List.count_append, List.count_append, permuteWords_count_lastKey]
  decide

/-! ### The bytes a batch can serve (R165, R168) -/

/-- With unread output NEXTBYTE reads the byte at NEXT and steps over it, whatever the form of the buffer. -/
theorem nextByte_buffered {s : State} (hlo : 16 ≤ s.next.toNat) (hhi : s.next.toNat < 256) :
    nextByte s = .next (readByte s.mem s.next.toNat, setNext (s.next + 1) s) := by
  have hcursor : cursorInRange s = true := by simp [cursorInRange]; omega
  have hunread : exhausted s = false := by simp [exhausted]; omega
  simp [nextByte, refill, hcursor, hunread]

/-- The `k` bytes of the buffer from address `n` on. -/
def bufferedBytes (m : Memory) (n k : Nat) : List Byte := (List.range' n k).map (readByte m)

theorem bufferedBytes_succ (m : Memory) (n k : Nat) :
    bufferedBytes m n (k + 1) = readByte m n :: bufferedBytes m (n + 1) k := rfl

theorem bufferedBytes_length (m : Memory) (n k : Nat) : (bufferedBytes m n k).length = k := by
  simp [bufferedBytes]

theorem bufferedBytes_getElem (m : Memory) (n k i : Nat) (hi : i < (bufferedBytes m n k).length) :
    (bufferedBytes m n k)[i] = readByte m (n + i) := by
  simp [bufferedBytes]

theorem bufferedBytes_congr {m m' : Memory} {n k : Nat} (h : ∀ a, n ≤ a → a < n + k → readByte m a = readByte m' a) :
    bufferedBytes m n k = bufferedBytes m' n k :=
  List.map_congr_left fun a ha =>
    have ⟨hlo, hhi⟩ := List.mem_range'_1.mp ha
    h a hlo hhi

/-- NEXT does not wrap while it points into the buffer. -/
theorem next_add_one_toNat {n : BitVec 9} (h : n.toNat < 256) : (n + 1).toNat = n.toNat + 1 := by
  bv_omega

/-- CNT counts down. -/
theorem cnt_sub_one_toNat {c : BitVec 28} {k : Nat} (h : c.toNat = k + 1) : (c - 1).toNat = k := by
  bv_omega

/-- The loop of GENERATE while the batch lasts. -/
theorem generateLoop_buffered (k : Nat) (out : List Byte) (s : State) (hcnt : s.cnt.toNat = k)
    (hlo : 16 ≤ s.next.toNat) (hhi : s.next.toNat + k ≤ 256) :
    ∃ t, generateLoop k out s = .next (out ++ bufferedBytes s.mem s.next.toNat k, t) := by
  induction k generalizing out s with
  | zero => exact ⟨s, by simp [generateLoop, bufferedBytes]⟩
  | succ k ih =>
    have hmore : s.cnt ≠ 0 := fun h => by simp [h] at hcnt
    have hnext := next_add_one_toNat (n := s.next) (by omega)
    obtain ⟨t, ht⟩ := ih (out ++ [readByte s.mem s.next.toNat]) (setCnt (s.cnt - 1) (setNext (s.next + 1) s))
      (cnt_sub_one_toNat hcnt) (show 16 ≤ (s.next + 1).toNat by omega) (show (s.next + 1).toNat + k ≤ 256 by omega)
    refine ⟨t, ?_⟩
    rw [generateLoop, if_neg hmore, nextByte_buffered hlo (by omega), andThen_next]
    refine ht.trans ?_
    simp only [setCnt_mem, setNext_mem, setCnt_next, setNext_next, hnext, bufferedBytes_succ, List.append_assoc,
      List.singleton_append]

/-- A GENERATE that the batch can serve. -/
theorem execGenerate_buffered {n : BitVec 28} {s : State} (hi : s.inited = true) (hlo : 16 ≤ s.next.toNat)
    (hhi : s.next.toNat + n.toNat ≤ 256) :
    ∃ t, execGenerate n s = .next t ∧
      t.response = some { status := .ok, data := bufferedBytes s.mem s.next.toNat n.toNat } := by
  obtain ⟨u, hu⟩ := generateLoop_buffered n.toNat [] (setCnt n (acceptCommand s)) rfl hlo hhi
  exact ⟨respond .ok _ u, by rw [execGenerate, if_pos hi, hu, andThen_next]; rfl, rfl⟩

/-! ### The reference stream (R166) -/

theorem refGenerate_length (roms : Roms) (k : Nat) (S : Blocks) (n : Nat) : (refGenerate roms k S n).1.length = k := by
  induction k generalizing S n with
  | zero => rfl
  | succ k ih => exact congrArg (· + 1) (ih _ _)

/-- The stream is read on from where the first `a` bytes left it. -/
theorem refGenerate_add (roms : Roms) (a b : Nat) (S : Blocks) (n : Nat) :
    refGenerate roms (a + b) S n =
      ((refGenerate roms a S n).1 ++ (refGenerate roms b (refGenerate roms a S n).2.1 (refGenerate roms a S n).2.2).1,
        (refGenerate roms b (refGenerate roms a S n).2.1 (refGenerate roms a S n).2.2).2) := by
  induction a generalizing S n with
  | zero => simp [refGenerate]
  | succ a ih => rw [Nat.add_right_comm, refGenerate, refGenerate, ih]; rfl

/-- One byte of the stream. -/
theorem refGenerate_one (roms : Roms) (S : Blocks) (n : Nat) :
    refGenerate roms 1 S n = ([(refNextByte roms S n).1], (refNextByte roms S n).2) := rfl

/-- The cursor stays where a byte can be read. -/
theorem refGenerate_cursor_readable (roms : Roms) (k : Nat) (S : Blocks) (n : Nat) (hlo : 16 ≤ n) (hhi : n ≤ 256) :
    16 ≤ (refGenerate roms k S n).2.2 ∧ (refGenerate roms k S n).2.2 ≤ 256 := by
  cases k with
  | zero => exact ⟨hlo, hhi⟩
  | succ k =>
    obtain ⟨hlo', hhi'⟩ := refNextByte_cursor roms S n hlo hhi
    have hrest := refGenerate_cursor roms k (refNextByte roms S n).2.1 _ hlo' hhi'
    exact ⟨Nat.le_of_succ_le hrest.1, hrest.2⟩

/-! ### Bytes read from a state (R165, R166, R171) -/

/-- A byte can be read: the buffer is in canonical form, the CORE is initialised and the cursor is in range. -/
structure Readable (s : State) : Prop where
  wf : Memory.wf s.mem
  inited : s.inited = true
  lower : 16 ≤ s.next.toNat
  upper : s.next.toNat ≤ 256

/-- From `s` to `t` the `k` bytes `data` of the reference stream have been read. -/
structure BytesRead (k : Nat) (data : List Byte) (s t : State) : Prop where
  wf : Memory.wf t.mem
  stream : (data, blocksOf t.mem, t.next.toNat) = refGenerate s.roms k (blocksOf s.mem) s.next.toNat
  inited : t.inited = s.inited
  roms : t.roms = s.roms

section
variable {k a b : Nat} {data da db : List Byte} {s t u : State}

theorem BytesRead.refl (hw : Memory.wf s.mem) : BytesRead 0 [] s s := ⟨hw, rfl, rfl, rfl⟩

theorem BytesRead.trans (h : BytesRead a da s t) (h' : BytesRead b db t u) : BytesRead (a + b) (da ++ db) s u := by
  refine ⟨h'.wf, ?_, h'.inited.trans h.inited, h'.roms.trans h.roms⟩
  rw [refGenerate_add, ← h.stream, ← h.roms, ← h'.stream]

theorem BytesRead.length (h : BytesRead k data s t) : data.length = k := by
  rw [← refGenerate_length s.roms k (blocksOf s.mem) s.next.toNat, ← h.stream]

theorem BytesRead.readable (h : BytesRead k data s t) (hs : Readable s) : Readable t := by
  have hcursor := refGenerate_cursor_readable s.roms k (blocksOf s.mem) _ hs.lower hs.upper
  rw [← h.stream] at hcursor
  exact ⟨h.wf, h.inited.trans hs.inited, hcursor.1, hcursor.2⟩

/-- The bytes and the state after them are a function of S, NEXT, INITED and the ROMs. -/
theorem BytesRead.agree {s' t' : State} {data' : List Byte} (h : BytesRead k data s t) (h' : BytesRead k data' s' t')
    (hs : sameArchitecture s s') : data = data' ∧ sameArchitecture t t' := by
  obtain ⟨hmem, hnext, hinited, hroms⟩ := hs
  have hstream := h'.stream
  rw [hmem, hnext, hroms, ← h.stream] at hstream
  obtain ⟨hdata, hblocks, hcursor⟩ : data' = data ∧ blocksOf t'.mem = blocksOf t.mem ∧ t'.next.toNat = t.next.toNat := by
    simpa using hstream
  exact ⟨hdata.symm, blocksOf_injective h'.wf h.wf hblocks, BitVec.eq_of_toNat_eq hcursor,
    by rw [h'.inited, h.inited, hinited], by rw [h'.roms, h.roms, hroms]⟩

end

/-- A command that returns `k` bytes: they are those of the stream and its whole response, and the words are those of
their permutations. -/
def ServesBytes (k : Nat) (s : State) (o : Result) : Prop :=
  ∃ t data, o = .next t ∧ BytesRead k data s t ∧ t.response = some { status := .ok, data := data } ∧
    t.inputs = s.inputs ∧ t.issued = (generateWords k s.next.toNat).reverse

theorem exec_genbyte_serves {s : State} (h : Readable s) : ServesBytes 1 s (exec .genbyte s) := by
  obtain ⟨y, t, ht, hwf, hbyte, hinited, hroms, hinputs, -, hresponse, hissued⟩ :=
    execGenbyte_spec s h.wf h.inited h.lower h.upper
  exact ⟨t, [y], ht, ⟨hwf, by rw [refGenerate_one, ← hbyte], hinited, hroms⟩, hresponse, hinputs, hissued⟩

theorem exec_generate_serves (n : BitVec 28) {s : State} (h : Readable s) :
    ServesBytes n.toNat s (exec (.generate n) s) := by
  obtain ⟨t, ht, hwf, hstream, hinited, hroms, hinputs, -, hresponse, hissued⟩ :=
    execGenerate_spec n s h.wf h.inited h.lower h.upper
  exact ⟨t, _, ht, ⟨hwf, by rw [hstream], hinited, hroms⟩, hresponse, hinputs, hissued⟩

/-- `k` GENBYTEs read `k` bytes. -/
theorem repeatGenbyte_reads (k : Nat) {s : State} (h : Readable s) :
    ∃ u data, repeatGenbyte k s = .next (data, u) ∧ BytesRead k data s u := by
  induction k generalizing s with
  | zero => exact ⟨s, [], rfl, .refl h.wf⟩
  | succ k ih =>
    obtain ⟨t, data, ht, hread, hresponse, -⟩ := exec_genbyte_serves h
    obtain ⟨u, rest, hu, hrest⟩ := ih (hread.readable h)
    refine ⟨u, data ++ rest, ?_, Nat.add_comm 1 k ▸ hread.trans hrest⟩
    rw [repeatGenbyte, ht, andThen_next, hu, andThen_next, hresponse]
    rfl

/-! ### The cadence of the permutations (R167) -/

/-- NEXT after `N` bytes since INIT. -/
def cursorAfter (N : Nat) : Nat := if N % 240 = 0 then 256 else 16 + N % 240

/-- A batch is 240 bytes: the cursor is at 256 after the last, at 17 after the first of the next. -/
theorem cursorAfter_succ (N : Nat) : cursorAfter (N + 1) = if cursorAfter N < 256 then cursorAfter N + 1 else 17 := by
  unfold cursorAfter
  split_ifs <;> omega

theorem cursorAfter_lt_iff (N : Nat) : cursorAfter N < 256 ↔ N % 240 ≠ 0 := by
  unfold cursorAfter
  split_ifs <;> omega

theorem refGenerate_cursorAfter (roms : Roms) (k : Nat) (S : Blocks) (N : Nat) :
    (refGenerate roms k S (cursorAfter N)).2.2 = cursorAfter (N + k) := by
  induction k generalizing S N with
  | zero => rfl
  | succ k ih =>
    show (refGenerate roms k _ (refNextByte roms S (cursorAfter N)).2.2).2.2 = _
    rw [refNextByte_next, ← cursorAfter_succ, ih, Nat.add_right_comm, Nat.add_assoc]

/-- The permutation for one byte: none while the batch lasts, one at its end. -/
theorem generateWords_one_count_lastKey (n : Nat) :
    (generateWords 1 n).count 0x6087 = if n < 256 then 0 else 1 := by
  by_cases h : n < 256
  · simp [generateWords, h]
  · rw [generateWords, if_neg h, generateWords, List.append_nil, regenWords_count_lastKey, if_neg h]

/-- Reading `k` bytes after `N` runs the permutations that take `ceil(N / 240)` to `ceil((N + k) / 240)`. -/
theorem generateWords_count_lastKey (k N : Nat) :
    (generateWords k (cursorAfter N)).count 0x6087 + (N + 239) / 240 = (N + k + 239) / 240 := by
  induction k generalizing N with
  | zero => simp [generateWords]
  | succ k ih =>
    have hrest := ih (N + 1)
    have hbatch := cursorAfter_lt_iff N
    rw [generateWords_succ, List.count_append, generateWords_one_count_lastKey, ← cursorAfter_succ]
    split_ifs <;> omega

/-- The number of bytes a command returned. -/
def bytesReturned (t : State) : Nat := t.response.elim 0 fun q => q.data.length

/-- `t` is left by a command before which `N` bytes had been returned since INIT: NEXT counts the bytes of the command as
well, and it has run the permutations they needed. -/
structure KeepsCadence (N : Nat) (t : State) : Prop where
  readable : Readable t
  cursor : t.next.toNat = cursorAfter (N + bytesReturned t)
  permutations : t.issued.count 0x6087 + (N + 239) / 240 = (N + bytesReturned t + 239) / 240

theorem ServesBytes.keepsCadence {k N : Nat} {s : State} {o : Result} (h : ServesBytes k s o) (hs : Readable s)
    (hN : s.next.toNat = cursorAfter N) : ∃ t, o = .next t ∧ KeepsCadence N t := by
  obtain ⟨t, data, ht, hread, hresponse, -, hissued⟩ := h
  have hk : bytesReturned t = k := by simp [bytesReturned, hresponse, hread.length]
  refine ⟨t, ht, hread.readable hs, ?cursor, ?permutations⟩
  case cursor => rw [hk, ← refGenerate_cursorAfter s.roms k (blocksOf s.mem) N, ← hN, ← hread.stream]
  case permutations => rw [hk, hissued, List.count_reverse, hN, generateWords_count_lastKey]

theorem exec_reseed_keepsCadence {N : Nat} {s : State} (hs : Readable s) (hN : s.next.toNat = cursorAfter N) :
    ∃ t, exec .reseed s = .next t ∧ KeepsCadence N t := by
  obtain ⟨t, ht, hwf, -, hnext, hinited, -, -, -, hresponse, hissued⟩ := execReseed_spec s hs.wf hs.inited
  have hnone : bytesReturned t = 0 := by simp [bytesReturned, hresponse]
  refine ⟨t, ht, ⟨hwf, hinited.trans hs.inited, hnext ▸ hs.lower, hnext ▸ hs.upper⟩, ?cursor, ?permutations⟩
  case cursor => rw [hnone, hnext, hN, Nat.add_zero]
  case permutations => rw [hnone, hissued, List.count_reverse, absorbWords_count_lastKey, Nat.zero_add, Nat.add_zero]

/-- Each of the three commands keeps the cadence. -/
theorem exec_afterInit_keepsCadence {i : Instr} (hi : afterInit i) {N : Nat} {s : State} (hs : Readable s)
    (hN : s.next.toNat = cursorAfter N) : ∃ t, exec i s = .next t ∧ KeepsCadence N t := by
  cases i with
  | reseed => exact exec_reseed_keepsCadence hs hN
  | genbyte => exact (exec_genbyte_serves hs).keepsCadence hs hN
  | generate n => exact (exec_generate_serves n hs).keepsCadence hs hN
  | init => exact hi.elim
  | vloadState i => exact hi.elim
  | vloadSeed i => exact hi.elim
  | vloadRkrom k => exact hi.elim
  | vstoreState i => exact hi.elim
  | vaesrnd => exact hi.elim

/-- The SEED operand does not bear on whether a byte can be read. -/
theorem readable_presentSeed {s : State} (h : Readable s) (i : Instr) (seed : Seed) : Readable (presentSeed i seed s) :=
  ⟨by simpa using h.wf, by simpa using h.inited, by simpa using h.lower, by simpa using h.upper⟩

/-- A run of the three commands from a state that has returned `N` bytes since INIT. -/
theorem countedRun_cadence (cs : List (Instr × Seed)) (hcs : ∀ c ∈ cs, afterInit c.1) {N : Nat} {s : State}
    (hs : Readable s) (hN : s.next.toNat = cursorAfter N) :
    ∃ k p u, countedRun cs s = .next (k, p, u) ∧ p + (N + 239) / 240 = (N + k + 239) / 240 ∧
      u.next.toNat = cursorAfter (N + k) := by
  induction cs generalizing N s with
  | nil => exact ⟨0, 0, s, rfl, Nat.zero_add _, hN⟩
  | cons c cs ih =>
    obtain ⟨i, seed⟩ := c
    obtain ⟨hi, hrest⟩ := List.forall_mem_cons.mp hcs
    obtain ⟨t, ht, hread, hcursor, hcount⟩ :=
      exec_afterInit_keepsCadence hi (N := N) (readable_presentSeed hs i seed) (by simpa using hN)
    obtain ⟨k, p, u, hu, hp, hnext⟩ := ih hrest hread hcursor
    refine ⟨bytesReturned t + k, t.issued.count 0x6087 + p, u, ?run, by rw [← Nat.add_assoc N]; omega,
      by rw [hnext, Nat.add_assoc]⟩
    case run =>
      rw [countedRun, ht, andThen_next, hu, andThen_next]
      rfl

/-! ### Two runs from states that agree (R163, R170) -/

/-- Both runs complete, with the same response and the same S, NEXT, INITED and ROMs. -/
def SameOutcome (o o' : Result) : Prop :=
  ∃ t t', o = .next t ∧ o' = .next t' ∧ t.response = t'.response ∧ sameArchitecture t t'

/-- Of the old state INIT keeps the ROMs only: the rest it leaves is fixed by the seed. -/
theorem exec_init_of_seed_eq {s s' : State} (hw : Memory.wf s.mem) (hw' : Memory.wf s'.mem) (hseed : s.seed = s'.seed) :
    ∃ t t', exec .init s = .next t ∧ exec .init s' = .next t' ∧ t.mem = t'.mem ∧ t.next = t'.next ∧
      t.inited = t'.inited ∧ t.response = t'.response ∧ t.roms = s.roms ∧ t'.roms = s'.roms := by
  obtain ⟨t, ht, hwf, hblocks, hnext, hinited, hroms, -, -, hresponse, -⟩ := execInit_spec s hw
  obtain ⟨t', ht', hwf', hblocks', hnext', hinited', hroms', -, -, hresponse', -⟩ := execInit_spec s' hw'
  refine ⟨t, t', ht, ht', blocksOf_injective hwf hwf' ?_, hnext.trans hnext'.symm, hinited.trans hinited'.symm,
    hresponse.trans hresponse'.symm, hroms, hroms'⟩
  rw [hblocks, hblocks', hseed]

theorem exec_init_sameOutcome {s s' : State} (hw : Memory.wf s.mem) (hw' : Memory.wf s'.mem) (hseed : s'.seed = s.seed)
    (hroms : s'.roms = s.roms) : SameOutcome (exec .init s) (exec .init s') := by
  obtain ⟨t, t', ht, ht', hmem, hnext, hinited, hresponse, hr, hr'⟩ := exec_init_of_seed_eq hw hw' hseed.symm
  exact ⟨t, t', ht, ht', hresponse, hmem.symm, hnext.symm, hinited.symm, by rw [hr, hr', hroms]⟩

theorem exec_init_stateInv {s t : State} (h : exec .init s = .next t) (hw : Memory.wf s.mem) : stateInv t := by
  obtain ⟨u, hu, hwf, -, hnext, -⟩ := execInit_spec s hw
  cases hu.symm.trans h
  exact ⟨hwf, fun _ => by rw [hnext]; decide⟩

section
variable {s s' : State}

theorem ServesBytes.sameOutcome {k : Nat} {o o' : Result} (h : ServesBytes k s o) (h' : ServesBytes k s' o')
    (hs : sameArchitecture s s') : SameOutcome o o' := by
  obtain ⟨t, data, ht, hread, hresponse, -⟩ := h
  obtain ⟨t', data', ht', hread', hresponse', -⟩ := h'
  obtain ⟨hdata, hagree⟩ := hread.agree hread' hs
  exact ⟨t, t', ht, ht', by rw [hresponse, hresponse', hdata], hagree⟩

theorem exec_reseed_sameOutcome (hw : Memory.wf s.mem) (hi : s.inited = true) (h : sameArchitecture s s')
    (hseed : s'.seed = s.seed) : SameOutcome (exec .reseed s) (exec .reseed s') := by
  obtain ⟨hmem, hnext, hinited, hroms⟩ := h
  obtain ⟨t, ht, hwf, hblocks, hn, hin, hr, -, -, hresponse, -⟩ := execReseed_spec s hw hi
  obtain ⟨t', ht', hwf', hblocks', hn', hin', hr', -, -, hresponse', -⟩ :=
    execReseed_spec s' (hmem ▸ hw) (hinited.trans hi)
  refine ⟨t, t', ht, ht', hresponse.trans hresponse'.symm, blocksOf_injective hwf' hwf ?_, by rw [hn, hn', hnext],
    by rw [hin, hin', hinited], by rw [hr, hr', hroms]⟩
  rw [hblocks, hblocks', hseed, hmem]

theorem readable_of_sameArchitecture (hs : Readable s) (h : sameArchitecture s s') : Readable s' := by
  obtain ⟨hmem, hnext, hinited, -⟩ := h
  exact ⟨hmem ▸ hs.wf, hinited.trans hs.inited, hnext ▸ hs.lower, hnext ▸ hs.upper⟩

theorem stateInv.readable (hs : stateInv s) (hi : s.inited = true) : Readable s := by
  obtain ⟨hwf, hcursor⟩ := hs
  obtain ⟨hlo, hhi⟩ := hcursor hi
  exact ⟨hwf, hi, by omega, hhi⟩

/-- A host command does the same from states that agree and have the same SEED operand. -/
theorem exec_command_sameOutcome {cmd : BitVec 32} {i : Instr} (hd : decodeCommand cmd = .ok i) (hs : stateInv s)
    (h : sameArchitecture s s') (hseed : i = .init ∨ i = .reseed → s'.seed = s.seed) :
    SameOutcome (exec i s) (exec i s') := by
  have ⟨hwf, _⟩ := hs
  have ⟨hmem, _, hinited, hroms⟩ := h
  rcases decodeCommand_cases hd with rfl | hlate
  · exact exec_init_sameOutcome hwf (hmem ▸ hwf) (hseed (.inl rfl)) hroms
  cases hi : s.inited with
  | false => exact ⟨_, _, exec_uninitialised hi hlate, exec_uninitialised (hinited.trans hi) hlate, rfl, h⟩
  | true =>
    have hread := hs.readable hi
    have hread' := readable_of_sameArchitecture hread h
    rcases hlate with rfl | rfl | ⟨n, rfl⟩
    · exact exec_reseed_sameOutcome hwf hi h (hseed (.inr rfl))
    · exact (exec_genbyte_serves hread).sameOutcome (exec_genbyte_serves hread') h
    · exact (exec_generate_serves n hread).sameOutcome (exec_generate_serves n hread') h

theorem sameArchitecture_presentSeed (h : sameArchitecture s s') (i : Instr) (seed : Seed) (rest : List Event) :
    sameArchitecture (presentSeed i seed (setInputs rest s)) (presentSeed i seed (setInputs rest s')) := by
  simpa [sameArchitecture] using h

/-- The SEED operand an instruction uses is the one presented with it. -/
theorem presentSeed_seed_eq {i : Instr} (h : i = .init ∨ i = .reseed) (seed : Seed) :
    (presentSeed i seed s').seed = (presentSeed i seed s).seed := by
  rcases h with rfl | rfl <;> rfl

/-- One host command word, legal or not. -/
theorem presentCommand_sameOutcome (hs : stateInv s) (h : sameArchitecture s s') (cmd : BitVec 32) (seed : Seed) :
    SameOutcome (presentCommand cmd seed s) (presentCommand cmd seed s') := by
  by_cases hd : ∃ i, decodeCommand cmd = .ok i
  · obtain ⟨i, hd⟩ := hd
    rw [presentCommand_of_decode hd, presentCommand_of_decode hd]
    exact exec_command_sameOutcome hd (stateInv_presentSeed hs i seed []) (sameArchitecture_presentSeed h i seed [])
      fun hi => presentSeed_seed_eq hi seed
  · have hno : ∀ i, decodeCommand cmd ≠ .ok i := fun i hi => hd ⟨i, hi⟩
    exact ⟨_, _, presentCommand_rejected hno seed s, presentCommand_rejected hno seed s', rfl, h⟩

end

theorem hostRun_cons {cmd : BitVec 32} {seed : Seed} {cs : List (BitVec 32 × Seed)} {s t u : State}
    {rs : List (Option Response)} (ht : presentCommand cmd seed s = .next t) (hu : hostRun cs t = .next (rs, u)) :
    hostRun ((cmd, seed) :: cs) s = .next (t.response :: rs, u) := by
  rw [hostRun, ht, andThen_next, hu, andThen_next]

theorem presentCommand_stateInv {cmd : BitVec 32} {seed : Seed} {s t : State} (hs : stateInv s)
    (h : presentCommand cmd seed s = .next t) : stateInv t :=
  stepKeepsTheInvariant (setInputs [.command cmd seed] s) t (stateInv_of_eq hs rfl rfl rfl) h

/-- A whole run from states that agree. -/
theorem hostRun_agrees (cs : List (BitVec 32 × Seed)) {s s' : State} (hs : stateInv s) (h : sameArchitecture s s') :
    ∃ rs t t', hostRun cs s = .next (rs, t) ∧ hostRun cs s' = .next (rs, t') ∧ sameArchitecture t t' := by
  induction cs generalizing s s' with
  | nil => exact ⟨[], s, s', rfl, rfl, h⟩
  | cons c cs ih =>
    obtain ⟨cmd, seed⟩ := c
    obtain ⟨t, t', ht, ht', hresponse, hagree⟩ := presentCommand_sameOutcome hs h cmd seed
    obtain ⟨rs, u, u', hu, hu', hend⟩ := ih (presentCommand_stateInv hs ht) hagree
    exact ⟨t.response :: rs, u, u', hostRun_cons ht hu, hresponse ▸ hostRun_cons ht' hu', hend⟩

end Sys2Proof.Machine
end

