-- ==== Sys2Proof/Proofs/SpongeFamily.lean ====
section
/-! PROOFS. The statements of spec/42_sponge.md: ABSORB and REGEN, the four host commands, and the laws of the sponge. -/

namespace Sys2Proof.Machine

/-! ### ABSORB and REGEN (R161, R162) -/

/-- Settles O32: ABSORB on the blocks, read byte by byte. -/
theorem absorbXorsTheSeedIntoTheRate : Obligations.AbsorbXorsTheSeedIntoTheRate := by
  intro s hw
  obtain ⟨t, ht, hframe, hwf, hblocks, hissued⟩ := absorb_spec s hw
  refine ⟨t, ht, hwf, fun a ha => readByte_absorbed_capacity hblocks ha, fun r hr => readByte_absorbed_rate hblocks hr,
    hframe.toRoutineFrame, ?_⟩
  rw [hissued, List.length_append, List.length_reverse, absorbWords_length, Nat.add_comm]

/-- Settles O33: the second ABSORB finds the same seed, and a seed absorbed twice cancels. -/
theorem absorbTwiceRestoresTheBuffer : Obligations.AbsorbTwiceRestoresTheBuffer := by
  intro s hw
  obtain ⟨t, ht, hframe, hwf, hblocks, -⟩ := absorb_spec s hw
  obtain ⟨u, hu, -, hwf', hblocks', -⟩ := absorb_spec t hwf
  refine ⟨t, u, ht, hu, blocksOf_injective hwf' hw ?_⟩
  rw [hblocks', hblocks, hframe.seed, refAbsorb_self_cancel]

/-- Settles O34, by what REGEN does to the blocks and the length of its words. -/
theorem regenRefinesFeedForward : Obligations.RegenRefinesFeedForward := by
  intro s hw
  obtain ⟨t, ht, hframe, hwf, hblocks, hissued⟩ := regen_spec s hw
  refine ⟨t, ht, hframe, hwf, hblocks, ?_⟩
  rw [hissued, List.length_append, List.length_reverse, regenWords_length, Nat.add_comm]

/-! ### INIT and RESEED (R163, R164) -/

/-- Settles O35: INIT is ABSORB on the zeroed buffer, whose bytes all read 0. -/
theorem initCreatesTheGeneratorState : Obligations.InitCreatesTheGeneratorState := by
  intro s hw
  obtain ⟨t, ht, hwf, hblocks, hnext, hinited, hroms, hinputs, -, hresponse, hissued⟩ := execInit_spec s hw
  refine ⟨t, ht, hwf, fun a ha => readByte_absorbed_capacity hblocks ha, fun r hr => ?rate, by rw [hnext]; rfl, hinited,
    hresponse, hroms, hinputs, ?length, ?count⟩
  case rate => exact (readByte_absorbed_rate hblocks hr).trans BitVec.zero_xor
  case length => rw [hissued, List.length_reverse, absorbWords_length]
  case count => rw [hissued, List.count_reverse, absorbWords_count_lastKey]

/-- Settles O36: what INIT leaves is fixed by the seed. -/
theorem initDiscardsTheOldState : Obligations.InitDiscardsTheOldState := by
  intro s s' hw hw' hseed
  obtain ⟨t, t', ht, ht', hmem, hnext, hinited, hresponse, -⟩ := exec_init_of_seed_eq hw hw' hseed
  exact ⟨t, t', ht, ht', hmem, hnext, hinited, hresponse⟩

/-- Settles O37: RESEED is ABSORB and a response. -/
theorem reseedAbsorbsTheSeed : Obligations.ReseedAbsorbsTheSeed := by
  intro s hw hi
  obtain ⟨t, ht, hwf, hblocks, hnext, hinited, hroms, hinputs, -, hresponse, -⟩ := execReseed_spec s hw hi
  exact ⟨t, ht, hwf, fun a ha => readByte_absorbed_capacity hblocks ha, fun r hr => readByte_absorbed_rate hblocks hr,
    hnext, hinited.trans hi, hresponse, hroms, hinputs⟩

/-- Settles O38: both orders absorb the XOR of the two seeds. -/
theorem reseedsCommuteAndCombine : Obligations.ReseedsCommuteAndCombine := by
  intro s x y z hw hi hbytes
  obtain rfl := eq_xorSeed_of_bytes hbytes
  obtain ⟨a, ha, hwa, hia, hblocksa, hnexta⟩ := exec_reseed_absorbs x hw hi
  obtain ⟨b, hb, hwb, -, hblocksb, hnextb⟩ := exec_reseed_absorbs y hwa hia
  obtain ⟨c, hc, hwc, hic, hblocksc, hnextc⟩ := exec_reseed_absorbs y hw hi
  obtain ⟨d, hd, hwd, -, hblocksd, hnextd⟩ := exec_reseed_absorbs x hwc hic
  obtain ⟨e, he, hwe, -, hblockse, hnexte⟩ := exec_reseed_absorbs (xorSeed x y) hw hi
  rw [hblocksa, refAbsorb_refAbsorb] at hblocksb
  rw [hblocksc, refAbsorb_refAbsorb, xorSeed_comm] at hblocksd
  exact ⟨a, b, c, d, e, ha, hb, hc, hd, he, blocksOf_injective hwb hwd (hblocksb.trans hblocksd.symm),
    blocksOf_injective hwb hwe (hblocksb.trans hblockse.symm), hnextb.trans hnexta, hnextd.trans hnextc, hnexte⟩

/-! ### GENBYTE and GENERATE (R165, R166) -/

/-- Settles O39: NEXTBYTE reads the byte at NEXT and runs nothing. -/
theorem genbyteReturnsTheBufferedByte : Obligations.GenbyteReturnsTheBufferedByte := by
  intro s hi hlo hhi
  refine ⟨respond .ok [readByte s.mem s.next.toNat] (setNext (s.next + 1) (acceptCommand s)), ?run, rfl,
    next_add_one_toNat hhi, rfl, hi, rfl, rfl, rfl⟩
  case run =>
    show execGenbyte s = _
    rw [execGenbyte, if_pos hi, nextByte_buffered (s := acceptCommand s) hlo hhi, andThen_next]
    rfl

/-- Settles O40: at NEXT = 256 the reference byte is byte 16 of REGEN of the blocks. -/
theorem genbyteRegeneratesWhenExhausted : Obligations.GenbyteRegeneratesWhenExhausted := by
  intro s hw hi hnext
  obtain ⟨y, t, ht, hwf, hbyte, hinited, hroms, hinputs, -, hresponse, hissued⟩ :=
    execGenbyte_spec s hw hi (by omega) (by omega)
  have hwords : generateWords 1 256 = regenWords := List.append_nil _
  rw [hnext, hwords] at hissued
  rw [hnext, refNextByte, dif_neg (by omega)] at hbyte
  obtain ⟨hy, hblocks, hcursor⟩ : y = refByte (refRegen s.roms (blocksOf s.mem)) 16 (by omega) ∧
      blocksOf t.mem = refRegen s.roms (blocksOf s.mem) ∧ t.next.toNat = 17 := by simpa using hbyte
  refine ⟨t, ht, hwf, hblocks, ?response, hcursor, hinited.trans hi, hroms, hinputs, ?length, ?count⟩
  case response => rw [hresponse, hy, ← refByte_blocksOf t.mem 16 (by omega), hblocks]
  case length => rw [hissued, List.length_reverse, regenWords_length]
  case count => rw [hissued, List.count_reverse, regenWords_count_lastKey]

/-- Settles O41, by the induction over the bytes in `generateLoop_spec`. -/
theorem generateRefinesTheByteStream : Obligations.GenerateRefinesTheByteStream := by
  intro n s hw hi hlo hhi
  obtain ⟨t, data, ht, hread, hresponse, hinputs, -⟩ := exec_generate_serves n ⟨hw, hi, hlo, hhi⟩
  exact ⟨t, data, ht, hread.wf, hresponse, hread.length, hread.stream, hread.inited.trans hi, hread.roms, hinputs⟩

/-- Settles O42: the loop is not entered. -/
theorem generateZeroChangesNothing : Obligations.GenerateZeroChangesNothing := by
  intro s hi
  refine ⟨respond .ok [] (setCnt 0 (acceptCommand s)), ?run, rfl, ⟨rfl, rfl, rfl, rfl⟩, rfl, rfl⟩
  case run =>
    show execGenerate 0 s = _
    rw [execGenerate, if_pos hi]
    rfl

/-! ### Laws of the sponge (R167 to R171) -/

/-- Settles O44: `a` bytes and then `b` more are `a + b` bytes of one stream, and so are `n` single ones. -/
theorem generateSplits : Obligations.GenerateSplits := by
  intro s hw hi hlo hhi
  have hs : Readable s := ⟨hw, hi, hlo, hhi⟩
  have hself : sameArchitecture s s := ⟨rfl, rfl, rfl, rfl⟩
  refine ⟨fun a b hab => ?split, fun n => ?single⟩
  case split =>
    obtain ⟨t, da, ht, hreada, hrespa, -⟩ := exec_generate_serves a hs
    obtain ⟨u, db, hu, hreadb, hrespb, -⟩ := exec_generate_serves b (hreada.readable hs)
    obtain ⟨v, dv, hv, hreadv, hrespv, -⟩ := exec_generate_serves (a + b) hs
    rw [BitVec.toNat_add_of_lt hab] at hreadv
    obtain ⟨hdata, hmem, hnext, hinited, -⟩ := hreadv.agree (hreada.trans hreadb) hself
    exact ⟨t, u, v, da, db, ht, hu, hv, hrespa, hrespb, hdata ▸ hrespv, hmem, hnext, hinited⟩
  case single =>
    obtain ⟨t, data, ht, hread, hresponse, -⟩ := exec_generate_serves n hs
    obtain ⟨u, data', hu, hreadu⟩ := repeatGenbyte_reads n.toNat hs
    obtain ⟨hdata, hmem, hnext, hinited, -⟩ := hreadu.agree hread hself
    exact ⟨t, u, data, ht, hdata ▸ hu, hresponse, hmem, hnext, hinited⟩

/-- Settles O45: INIT starts the count at 0 with the cursor at 256, and every command keeps the cadence. -/
theorem permutationCadence : Obligations.PermutationCadence := by
  intro s cs hw hcs
  obtain ⟨t, ht, hwf, -, hnext, hinited, -⟩ := execInit_spec s hw
  have hcursor : t.next.toNat = cursorAfter 0 := by rw [hnext]; rfl
  have hread : Readable t := ⟨hwf, hinited, by rw [hnext]; decide, by rw [hnext]; decide⟩
  obtain ⟨N, p, u, hu, hp, hend⟩ := countedRun_cadence cs hcs hread hcursor
  exact ⟨t, N, p, u, ht, hu, by omega, by rw [hend, Nat.zero_add, cursorAfter]⟩

/-- Settles O46: the buffered byte stands at NEXT, the regenerated one at 16. -/
theorem outputBytesComeFromTheRate : Obligations.OutputBytesComeFromTheRate := by
  intro s hw hi hlo hhi
  by_cases hx : s.next.toNat < 256
  · obtain ⟨t, ht, hresponse, hnext, hmem, -⟩ := genbyteReturnsTheBufferedByte s hi hlo hx
    exact ⟨t, s.next.toNat, ht, hlo, by omega, hnext, by rw [hresponse, hmem]⟩
  · obtain ⟨t, ht, -, -, hresponse, hnext, -⟩ := genbyteRegeneratesWhenExhausted s hw hi (by omega)
    exact ⟨t, 16, ht, le_rfl, by omega, hnext, hresponse⟩

/-- Settles O47: the bytes of the batch are read at addresses from 16 to 255. -/
theorem capacityDoesNotReachTheBatch : Obligations.CapacityDoesNotReachTheBatch := by
  intro s s' n hi hi' hnext hlo hhi hrate
  obtain ⟨t, ht, hresponse⟩ := execGenerate_buffered hi hlo hhi
  obtain ⟨t', ht', hresponse'⟩ := execGenerate_buffered hi' (hnext ▸ hlo) (hnext ▸ hhi)
  refine ⟨t, t', ht, ht', ?_⟩
  rw [hresponse, hresponse', ← hnext, bufferedBytes_congr fun a h h' => hrate a (by omega) (by omega)]

/-- Settles O48: the batch after the RESEED is the absorbed buffer from NEXT on. -/
theorem reseedShowsInTheUnreadBytes : Obligations.ReseedShowsInTheUnreadBytes := by
  intro s k hw hi hlo hhi hbatch
  obtain ⟨t, ht, -, hblocks, hnext, hinited, -⟩ := execReseed_spec s hw hi
  obtain ⟨u, hu, hresponse⟩ := execGenerate_buffered (n := k) (hinited.trans hi) (by rw [hnext]; omega) (by rw [hnext]; omega)
  rw [hnext] at hresponse
  refine ⟨t, u, _, ht, hu, hresponse, bufferedBytes_length _ _ _, fun i hlt hr => ?_⟩
  rw [bufferedBytes_getElem]
  have haddr : 16 + (s.next.toNat + i - 16) = s.next.toNat + i := by omega
  simpa only [haddr] using readByte_absorbed_rate hblocks hr

/-- Settles O49: INIT leaves the same from both states, and from there the two runs agree command by command. -/
theorem runsDependOnKeysAndCommandsOnly : Obligations.RunsDependOnKeysAndCommandsOnly := by
  intro s s' seed cs hw hw' hroms
  have hinit : decodeCommand 0x10000000 = .ok .init := decodeCommand_ok_iff.mpr rfl
  obtain ⟨t, t', ht, ht', hresponse, hagree⟩ :=
    exec_init_sameOutcome (s := presentSeed .init seed (setInputs [] s)) (s' := presentSeed .init seed (setInputs [] s'))
      hw hw' rfl hroms.symm
  obtain ⟨rs, u, u', hu, hu', hmem, hnext, hinited, -⟩ := hostRun_agrees cs (exec_init_stateInv ht hw) hagree
  rw [← presentCommand_of_decode hinit] at ht ht'
  exact ⟨t.response :: rs, u, u', hostRun_cons ht hu, hresponse ▸ hostRun_cons ht' hu', hmem.symm, hnext.symm,
    hinited.symm⟩

end Sys2Proof.Machine
end

