-- ==== Sys2Proof/Proofs/ExceptionLaws.lean ====
section
/-! SUPPORT. What a step does with nothing presented and with a reset, why a host command completes from every state with
the invariant, and why a step on a host's event does. -/

namespace Sys2Proof.Machine

/-! ### The step without a word (spec/60_exceptions.md R201, 70_reset_and_hazards.md R220, R221) -/

theorem step_idle {s : State} (hin : s.inputs = []) : step s = .next s := by
  simp only [step, hin]

theorem step_reset {s : State} {e : Event} {rest : List Event} (hin : s.inputs = e :: rest)
    (he : e = .reset ∨ ∃ cmd seed, e = .cutCommand cmd seed) : step s = .next (setInputs rest (resetEvent s)) := by
  rcases he with rfl | ⟨cmd, seed, rfl⟩ <;> simp only [step, hin]

/-! ### Progress (spec/60_exceptions.md R190, R194) -/

/-- The operation ends in a next state in which the events `rest` are waiting. -/
def CompletesWith (rest : List Event) (o : Result) : Prop := ∃ t, o = .next t ∧ t.inputs = rest

theorem ServesBytes.completesWith {k : Nat} {s : State} {o : Result} (h : ServesBytes k s o) :
    CompletesWith s.inputs o := by
  obtain ⟨t, data, ht, -, -, hinputs, -⟩ := h
  exact ⟨t, ht, hinputs⟩

/-- No host command stops: INIT needs the canonical form alone; the others answer ERR_UNINIT, or find the cursor where
R35 of 10_state.md says. -/
theorem exec_command_completes {s : State} {cmd : BitVec 32} {i : Instr} (hs : stateInv s)
    (hd : decodeCommand cmd = .ok i) : CompletesWith s.inputs (exec i s) := by
  have ⟨hwf, _⟩ := hs
  rcases decodeCommand_cases hd with rfl | hlate
  · obtain ⟨t, ht, -, -, -, -, -, hinputs, -⟩ := execInit_spec s hwf
    exact ⟨t, ht, hinputs⟩
  cases hi : s.inited with
  | false => exact ⟨_, exec_uninitialised hi hlate, by simp⟩
  | true =>
    have hread := hs.readable hi
    rcases hlate with rfl | rfl | ⟨n, rfl⟩
    · obtain ⟨t, ht, -, -, -, -, -, hinputs, -⟩ := execReseed_spec s hwf hi
      exact ⟨t, ht, hinputs⟩
    · exact (exec_genbyte_serves hread).completesWith
    · exact (exec_generate_serves n hread).completesWith

/-- A step on a command word completes, whether or not the word is an instruction. -/
theorem step_command_completes {s : State} {cmd : BitVec 32} {seed : Seed} {rest : List Event} (hs : stateInv s)
    (hin : s.inputs = .command cmd seed :: rest) : CompletesWith rest (step s) := by
  by_cases hd : ∃ i, decodeCommand cmd = .ok i
  · obtain ⟨i, hd⟩ := hd
    rw [step_command_of_decode hin hd]
    simpa using exec_command_completes (stateInv_presentSeed hs i seed rest) hd
  · exact ⟨_, step_command_rejected hin fun i hi => hd ⟨i, hi⟩, by simp⟩

/-- A step whose events a host can send completes, and takes the oldest of them. -/
theorem step_host_completes {s : State} (hs : stateInv s) (hhost : hostInputs s) :
    CompletesWith s.inputs.tail (step s) := by
  cases hin : s.inputs with
  | nil => exact ⟨s, step_idle hin, hin⟩
  | cons e rest =>
    have he : hostEvent e := hhost e (by simp [hin])
    cases e with
    | reset => exact ⟨_, step_reset hin (.inl rfl), rfl⟩
    | command cmd seed => exact step_command_completes hs hin
    | cutCommand cmd seed => exact ⟨_, step_reset hin (.inr ⟨cmd, seed, rfl⟩), rfl⟩
    | issue vop ports => exact he.elim

end Sys2Proof.Machine
end

