-- ==== Sys2Proof/Proofs/ExceptionFamily.lean ====
section
/-! PROOFS. The statements of spec/60_exceptions.md: that the host cannot stop the CORE, the idle step, and the two faults
with their priority. -/

namespace Sys2Proof.Machine

/-! ### Progress and the idle step (R190, R194, R197, R201) -/

/-- Settles O55: the step completes by `step_host_completes`, keeps the invariant by O54, and leaves the events after the
one it took. -/
theorem hostCannotStopTheCore : Obligations.HostCannotStopTheCore := by
  intro s hs hhost
  obtain ⟨t, ht, hinputs⟩ := step_host_completes hs hhost
  refine ⟨t, ht, stepKeepsTheInvariant s t hs ht, fun e he => hhost e ?_⟩
  rw [hinputs] at he
  exact List.mem_of_mem_tail he

/-- Settles O8, by the step's rule for an empty list of events. -/
theorem idleStepKeepsTheState : Obligations.IdleStepKeepsTheState :=
  fun _ hin => step_idle hin

/-! ### The two faults (R191, R195, R196) -/

/-- Settles O11: each of the three commands raises Uninitialised before it does anything else. -/
theorem commandsBeforeInitAnswerErrUninit : Obligations.CommandsBeforeInitAnswerErrUninit :=
  fun _ _ hi hcommand =>
    ⟨_, exec_uninitialised hi hcommand, by simp [faultStatus], ⟨by simp, by simp, by simp, by simp⟩, by simp, by simp⟩

/-- Settles O12: the word is decoded before INITED is looked at; 0x30000001 is no legal word, and 0x30000000 is GENBYTE. -/
theorem illegalCommandWinsOverUninitialised : Obligations.IllegalCommandWinsOverUninitialised := by
  intro s seed hi
  have hillegal : ∀ cmd, (∀ i, decodeCommand cmd ≠ .ok i) → ∃ t, presentCommand cmd seed s = .next t ∧
      t.response = some { status := .errIllegal, data := [] } :=
    fun cmd hno => ⟨_, presentCommand_rejected hno seed s, by simp⟩
  have hcount : ∀ i, decodeCommand 0x30000001 ≠ .ok i := fun i hd => absurd (legal_command_toNat hd) (by decide)
  have hgenbyte : decodeCommand 0x30000000 = .ok .genbyte := decodeCommand_ok_iff.mpr rfl
  obtain ⟨t, ht, hresponse, -⟩ := commandsBeforeInitAnswerErrUninit (presentSeed .genbyte seed (setInputs [] s)) .genbyte
    (by simpa using hi) (.inr (.inl rfl))
  exact ⟨hillegal, hillegal _ hcount, t, (presentCommand_of_decode hgenbyte seed s).trans ht, hresponse⟩

end Sys2Proof.Machine
end

