-- ==== Sys2Proof/Proofs/TraceLaws.lean ====
section
/-! SUPPORT. The trace of a host command, said once for each command: ABSORB's words, no word where the command is
answered ERR_UNINIT, and the words of the bytes that are read. -/

namespace Sys2Proof.Machine

/-! ### The commands that absorb (spec/42_sponge.md R163, R164) -/

theorem traceOf_exec_init {s : State} (hw : Memory.wf s.mem) : traceOf (exec .init s) = some absorbWords.reverse := by
  obtain ⟨t, ht, -, -, -, -, -, -, -, -, hissued⟩ := execInit_spec s hw
  rw [exec, ht, traceOf, hissued]

theorem traceOf_exec_reseed {s : State} (hw : Memory.wf s.mem) (hi : s.inited = true) :
    traceOf (exec .reseed s) = some absorbWords.reverse := by
  obtain ⟨t, ht, -, -, -, -, -, -, -, -, hissued⟩ := execReseed_spec s hw hi
  rw [exec, ht, traceOf, hissued]

/-! ### A command before INIT (spec/60_exceptions.md R191) -/

theorem traceOf_exec_uninitialised {s : State} {i : Instr} (h : s.inited = false)
    (hi : i = .reseed ∨ i = .genbyte ∨ ∃ n, i = .generate n) : traceOf (exec i s) = some [] := by
  rw [exec_uninitialised h hi, traceOf, raise_issued, acceptCommand_issued]

/-! ### The commands that read bytes (spec/42_sponge.md R165, R166) -/

/-- The trace of a command that reads `k` bytes with NEXT at `n`. With at least one byte to read and the cursor out of
range the command stops and leaves no trace (log 9). -/
def byteTrace (k : Nat) (n : BitVec 9) : Option (List (BitVec 16)) :=
  if k = 0 ∨ (16 ≤ n.toNat ∧ n.toNat ≤ 256) then some (generateWords k n.toNat).reverse else none

theorem ServesBytes.traceOf_eq {k : Nat} {s : State} {o : Result} (h : ServesBytes k s o) (hs : Readable s) :
    traceOf o = byteTrace k s.next := by
  obtain ⟨t, data, rfl, -, -, -, hissued⟩ := h
  rw [traceOf, hissued, byteTrace, if_pos (.inr ⟨hs.lower, hs.upper⟩)]

theorem exec_genbyte_refused {s : State} (hi : s.inited = true) (hn : ¬ (16 ≤ s.next.toNat ∧ s.next.toNat ≤ 256)) :
    exec .genbyte s = .refused (.cursorOutOfRange s.next) := by
  have hbyte : nextByte (acceptCommand s) = .refused (.cursorOutOfRange s.next) := nextByte_refused (acceptCommand s) hn
  rw [exec, execGenbyte, if_pos hi, hbyte, andThen]

theorem exec_generate_refused {n : BitVec 28} {s : State} (hi : s.inited = true) (h0 : n ≠ 0)
    (hn : ¬ (16 ≤ s.next.toNat ∧ s.next.toNat ≤ 256)) :
    exec (.generate n) s = .refused (.cursorOutOfRange s.next) := by
  obtain ⟨k, hk⟩ : ∃ k, n.toNat = k + 1 :=
    Nat.exists_eq_succ_of_ne_zero fun h => h0 (BitVec.eq_of_toNat_eq h)
  have hbyte : nextByte (setCnt n (acceptCommand s)) = .refused (.cursorOutOfRange s.next) :=
    nextByte_refused (setCnt n (acceptCommand s)) hn
  rw [exec, execGenerate, if_pos hi, hk, generateLoop, setCnt_cnt, if_neg h0, hbyte, andThen, andThen]

theorem traceOf_exec_genbyte {s : State} (hw : Memory.wf s.mem) (hi : s.inited = true) :
    traceOf (exec .genbyte s) = byteTrace 1 s.next := by
  by_cases hn : 16 ≤ s.next.toNat ∧ s.next.toNat ≤ 256
  · have hs : Readable s := ⟨hw, hi, hn.1, hn.2⟩
    exact (exec_genbyte_serves hs).traceOf_eq hs
  · rw [exec_genbyte_refused hi hn, traceOf, byteTrace, if_neg (by omega)]

/-- GENERATE 0 reads no byte and is served wherever NEXT stands (R166). -/
theorem traceOf_exec_generate {n : BitVec 28} {s : State} (hw : Memory.wf s.mem) (hi : s.inited = true) :
    traceOf (exec (.generate n) s) = byteTrace n.toNat s.next := by
  obtain rfl | h0 := eq_or_ne n 0
  · obtain ⟨t, ht, -, -, -, hissued⟩ := generateZeroChangesNothing s hi
    rw [ht, traceOf, hissued]
    rfl
  by_cases hn : 16 ≤ s.next.toNat ∧ s.next.toNat ≤ 256
  · have hs : Readable s := ⟨hw, hi, hn.1, hn.2⟩
    exact (exec_generate_serves n hs).traceOf_eq hs
  · have hk : n.toNat ≠ 0 := fun h => h0 (BitVec.eq_of_toNat_eq h)
    rw [exec_generate_refused hi h0 hn, traceOf, byteTrace, if_neg (by omega)]

/-! ### Any host command (spec/70_reset_and_hazards.md R226) -/

/-- Every trace above is written with NEXT and INITED alone. -/
theorem traceOf_exec_command_eq {cmd : BitVec 32} {i : Instr} {s s' : State} (hd : decodeCommand cmd = .ok i)
    (hw : Memory.wf s.mem) (hw' : Memory.wf s'.mem) (hnext : s.next = s'.next) (hinited : s.inited = s'.inited) :
    traceOf (exec i s) = traceOf (exec i s') := by
  rcases decodeCommand_cases hd with rfl | hlate
  · rw [traceOf_exec_init hw, traceOf_exec_init hw']
  cases hi : s.inited with
  | false => rw [traceOf_exec_uninitialised hi hlate, traceOf_exec_uninitialised (hinited ▸ hi) hlate]
  | true =>
    have hi' : s'.inited = true := hinited ▸ hi
    rcases hlate with rfl | rfl | ⟨n, rfl⟩
    · rw [traceOf_exec_reseed hw hi, traceOf_exec_reseed hw' hi']
    · rw [traceOf_exec_genbyte hw hi, traceOf_exec_genbyte hw' hi', hnext]
    · rw [traceOf_exec_generate hw hi, traceOf_exec_generate hw' hi', hnext]

end Sys2Proof.Machine
end

