-- ==== Sys2Proof/Proofs/ResetFamily.lean ====
section
/-! PROOFS. The statements of spec/70_reset_and_hazards.md: the trace that no secret reaches, the first byte after INIT,
and the reset event. -/

namespace Sys2Proof.Machine

/-- Settles O59: an illegal word issues nothing on either side; a legal one runs its command, whose trace NEXT and INITED
fix, and the SEED operand changes neither. -/
theorem traceIsIndependentOfSecrets : Obligations.TraceIsIndependentOfSecrets := by
  intro cmd seed seed' s s' hw hw' hnext hinited
  by_cases hd : ∃ i, decodeCommand cmd = .ok i
  · obtain ⟨i, hd⟩ := hd
    rw [presentCommand_of_decode hd, presentCommand_of_decode hd]
    exact traceOf_exec_command_eq hd (by simpa using hw) (by simpa using hw') (by simpa using hnext)
      (by simpa using hinited)
  · have hno : ∀ i, decodeCommand cmd ≠ .ok i := fun i hi => hd ⟨i, hi⟩
    rw [presentCommand_rejected hno, presentCommand_rejected hno, traceOf, traceOf, raiseIllegal_issued,
      raiseIllegal_issued]

/-- Settles O50: INIT leaves NEXT at 256, where GENBYTE regenerates (R163, R165). -/
theorem firstByteAfterInitIsRegenerated : Obligations.FirstByteAfterInitIsRegenerated := by
  intro s hw
  obtain ⟨t, ht, hwf, -, -, hnext, hinited, -, hroms, -⟩ := initCreatesTheGeneratorState s hw
  obtain ⟨u, hu, -, hblocks, hresponse, -, -, -, -, -, hcount⟩ := genbyteRegeneratesWhenExhausted t hwf hinited hnext
  exact ⟨t, u, ht, hu, hroms ▸ hblocks, hresponse, hcount⟩

/-- Settles O52: both events take the step to `resetEvent`. -/
theorem resetEventClearsInited : Obligations.ResetEventClearsInited :=
  fun s _ _ hin he => ⟨_, step_reset hin he, resetEvent_inited s, resetEvent_roms s, resetEvent_response s, rfl⟩

end Sys2Proof.Machine
end

