-- ==== Sys2Proof/Proofs/OtherFamily.lean ====
section
/-! PROOFS. The statement of spec/93_implementation_defined.md U7: a byte read with the cursor out of range. -/

namespace Sys2Proof.Machine

/-- Settles O43: NEXT is outside 16 to 256, so the first byte either command reads is refused. -/
theorem cursorOutOfRangeIsRefused : Obligations.CursorOutOfRangeIsRefused := by
  intro s hinited houtside
  have hcursor : ¬ (16 ≤ s.next.toNat ∧ s.next.toNat ≤ 256) := by omega
  exact ⟨exec_genbyte_refused hinited hcursor, fun _ hcount => exec_generate_refused hinited hcount hcursor⟩

end Sys2Proof.Machine
end
